-- ==== Sys2Proof/Word.lean ====
section
/-! DEFINITION. The words of the DNP1-HP block: bytes of the datagram buffer, 32-bit port words, and the two
shapes in which the host puts an operation on the block's ports (R40, R90, R98). -/

namespace Sys2Proof

/-- One cell of the datagram buffer, and one character code of the text stream (R21, R46). -/
abbrev Byte := BitVec 8

/-- A command word, a register word of the read port, or the value input of the bit-field port (R33, R90, R98). -/
abbrev Word := BitVec 32

/-- What the host drives on the block's ports to have one of the ten operations of R95 performed: a word on the
command port (R90), or the three inputs of the bit-field port (R98; `sel` is the level of `bfx_sel`). -/
inductive PortWord where
  | command (w : Word)
  | bitField (sel : Bool) (pos : Byte) (value : Word)
deriving DecidableEq, Repr

end Sys2Proof
end

