-- ==== Sys2Proof/Syntax.lean ====
section
/-! DEFINITION. The ten operations of the block, one constructor per row of spec/opcode_table.json (R95). -/

namespace Sys2Proof

/-- The operations of R95. Operands are natural numbers, as the spec's own arithmetic is (R11); the widths the ports
and the command word give them are checked by `Instr.wellFormed` (R90, R91, R98, R121). DESIGN CHOICE, notes/assumptions/11.md. -/
inductive Instr where
  /-- HEXDIGIT(value, position) on the bit-field port (R121). -/
  | hexdigit (value pos : Nat)
  /-- BINDIGIT(value, position) on the bit-field port (R122). -/
  | bindigit (value pos : Nat)
  /-- NOP (R211). -/
  | nop
  /-- CLR: begin a new datagram (R212). -/
  | clr
  /-- PUSH d: append one byte to the buffer (R213). -/
  | push (d : Nat)
  /-- ETH off: decode an Ethernet header at a buffer address (R130). -/
  | eth (off : Nat)
  /-- IP4 off: decode an IPv4 header at a buffer address (R140). -/
  | ip4 (off : Nat)
  /-- NEXT: one iteration of the frame splitter (R170). -/
  | next
  /-- RUN: the whole frame splitter loop, with a dump of each frame (R180). -/
  | run
  /-- DUMP s, e: render a range of the buffer as hex-dump text (R190). -/
  | dump (first last : Nat)
deriving DecidableEq, Repr

end Sys2Proof
end

