-- ==== Sys2Proof/WellFormed.lean ====
section
/-! DEFINITION. Which instructions have an encoding: the operand ranges of R91 and R98. A range that is about the
state (DUMP with its end before its start, an offset past `LEN`) is no encoding error (R97) and is not checked here. -/

namespace Sys2Proof

/-- Every operand fits the field that carries it: `bfx_value[31:0]` and `bfx_pos[7:0]` of the bit-field port (R98),
the byte `b[7:0]` of PUSH whose `b[10:8]` must be zero, and the 11-bit arguments of ETH, IP4 and DUMP (R90, R91). -/
def Instr.wellFormed : Instr → Bool
  | .hexdigit value pos => decide (value < 2 ^ 32) && decide (pos < 2 ^ 8)
  | .bindigit value pos => decide (value < 2 ^ 32) && decide (pos < 2 ^ 8)
  | .nop => true
  | .clr => true
  | .push d => decide (d < 2 ^ 8)
  | .eth off => decide (off < 2 ^ 11)
  | .ip4 off => decide (off < 2 ^ 11)
  | .next => true
  | .run => true
  | .dump first last => decide (first < 2 ^ 11) && decide (last < 2 ^ 11)

end Sys2Proof
end

