-- ==== Sys2Proof/Decode.lean ====
section
/-! DEFINITION. Decoding of the command word (R90 to R92, R96) and of the bit-field port's inputs (R98), total on
every word and rejecting by name; and after it the encoder, from the same tables. -/

namespace Sys2Proof

/-- Field `op`, bits 31:28 (R90). -/
def wordOp (w : Word) : BitVec 4 := w.extractLsb' 28 4

/-- Field `z`, bits 27:22 (R90). -/
def wordZ (w : Word) : BitVec 6 := w.extractLsb' 22 6

/-- Argument `a`, bits 21:11 (R90). -/
def wordA (w : Word) : BitVec 11 := w.extractLsb' 11 11

/-- Argument `b`, bits 10:0 (R90). -/
def wordB (w : Word) : BitVec 11 := w.extractLsb' 0 11

/-- Why a command word is illegal, in the order of R92. The machine answers all three alike (R96). -/
inductive Illegal where
  /-- `z` is not zero. -/
  | nonzeroZ
  /-- `op` is 8 to 15. -/
  | reservedOp
  /-- A bit that R91 requires to be zero is not. -/
  | nonzeroField
deriving DecidableEq, Repr

/-- The instruction if its must-be-zero argument bits are zero (R92 step 3). -/
def ifZero (zero : Bool) (i : Instr) : Except Illegal Instr :=
  if zero then .ok i else .error .nonzeroField

/-- Decoding of a command word, in the order of R92 with the operand forms of R91. -/
def decodeCommand (w : Word) : Except Illegal Instr :=
  if wordZ w = 0#6 then
    let a := (wordA w).toNat
    let b := (wordB w).toNat
    match (wordOp w).toNat with
    | 0 => ifZero (a == 0 && b == 0) .nop
    | 1 => ifZero (a == 0 && b == 0) .clr
    | 2 => ifZero (a == 0 && decide (b < 2 ^ 8)) (.push b)
    | 3 => ifZero (b == 0) (.eth a)
    | 4 => ifZero (b == 0) (.ip4 a)
    | 5 => ifZero (a == 0 && b == 0) .next
    | 6 => ifZero (a == 0 && b == 0) .run
    | 7 => .ok (.dump a b)
    | _ => .error .reservedOp
  else .error .nonzeroZ

/-- Decoding of what stands on a port: a command word, or the bit-field inputs, every combination of which is legal
(R98: `bfx_sel` 0 selects HEXDIGIT, 1 selects BINDIGIT). -/
def decodePort : PortWord → Except Illegal Instr
  | .command w => decodeCommand w
  | .bitField sel pos value =>
    .ok (if sel then .bindigit value.toNat pos.toNat else .hexdigit value.toNat pos.toNat)

/-- A word of format C from its `op` and its two arguments, `z` being zero (R90). -/
def commandWord (op a b : Nat) : Word := BitVec.ofNat 32 (op * 2 ^ 28 + a * 2 ^ 11 + b)

/-- The encoding of an instruction: R91 for the commands, R98 for the bit-field port. -/
def encode : Instr → PortWord
  | .hexdigit value pos => .bitField false (BitVec.ofNat 8 pos) (BitVec.ofNat 32 value)
  | .bindigit value pos => .bitField true (BitVec.ofNat 8 pos) (BitVec.ofNat 32 value)
  | .nop => .command (commandWord 0x0 0 0)
  | .clr => .command (commandWord 0x1 0 0)
  | .push d => .command (commandWord 0x2 0 d)
  | .eth off => .command (commandWord 0x3 off 0)
  | .ip4 off => .command (commandWord 0x4 off 0)
  | .next => .command (commandWord 0x5 0 0)
  | .run => .command (commandWord 0x6 0 0)
  | .dump first last => .command (commandWord 0x7 first last)

/-- One 32-bit row of spec/opcode_table.json: the bits its encoding fixes and their values. -/
structure OpRow where
  mask : Word
  pattern : Word
deriving DecidableEq, Repr

/-- The rows of spec/opcode_table.json that are command words, in the table's order (NOP, CLR, PUSH, ETH, IP4, NEXT,
RUN, DUMP), written from its `mask` and `match` columns and used by no definition: the decoder is compared with them. -/
def opTable : List OpRow :=
  [⟨0xFFFFFFFF#32, 0x00000000#32⟩, ⟨0xFFFFFFFF#32, 0x10000000#32⟩,
   ⟨0xFFFFFF00#32, 0x20000000#32⟩, ⟨0xFFC007FF#32, 0x30000000#32⟩,
   ⟨0xFFC007FF#32, 0x40000000#32⟩, ⟨0xFFFFFFFF#32, 0x50000000#32⟩,
   ⟨0xFFFFFFFF#32, 0x60000000#32⟩, ⟨0xFFC00000#32, 0x70000000#32⟩]

/-- The word matches the row: its fixed bits have the row's values. -/
def OpRow.admits (r : OpRow) (w : Word) : Bool := (w &&& r.mask) == r.pattern

/-- The port inputs whose bits, numbered as spec/opcode_table.json numbers a row, are `bits`: a row of up to 32 bits is
a command word; a longer row is the 41 inputs of the bit-field port, `bfx_sel` bit 40, `bfx_pos` bits 39:32,
`bfx_value` bits 31:0. DEDUCED, notes/assumptions/12.md. -/
def portWordOfBits (nbits bits : Nat) : PortWord :=
  if nbits ≤ 32 then .command (BitVec.ofNat 32 bits)
  else .bitField (bits / 2 ^ 40 % 2 == 1) (BitVec.ofNat 8 (bits / 2 ^ 32)) (BitVec.ofNat 32 bits)

/-- The number of input bits a row of `nbits` bits has on its port (R90: 32; R98: 1 + 8 + 32). -/
def portBits (nbits : Nat) : Nat := if nbits ≤ 32 then 32 else 41

/-- The instruction the decoder reads from a row's bits; none for an illegal word and for bits no input carries. -/
def decodeTableWord (nbits w : Nat) : Option Instr :=
  if w < 2 ^ portBits nbits then
    match decodePort (portWordOfBits nbits w) with
    | .ok i => some i
    | .error _ => none
  else none

end Sys2Proof
end

