-- ==== Sys2Proof/Config.lean ====
section
/-! DEFINITION. The fixed numbers of R7 and R8, and the type of the three parameters the spec leaves open with a
stated default (TOS_MAP, HD_GAP, EOL: decisions D20, D30, D31). The setting the machine runs with is
`Sys2Proof.Machine.params` in Machine/Ops.lean; every operation that depends on a parameter takes it as an
argument, so that laws can be stated for all settings. -/

namespace Sys2Proof.Config

/-- `BUF_SIZE` (R7): capacity of the datagram buffer in bytes. -/
def bufSize : Nat := 1024

/-- `ETH_LEN` (R7): length of the Ethernet header in bytes. -/
def ethLen : Nat := 14

/-- `IP_MIN` (R7): minimum IPv4 header length in bytes. -/
def ipMin : Nat := 20

/-- `MIN_FRAME` (R7, R8): fewest remaining bytes for a decode attempt. -/
def minFrame : Nat := 34

/-- `ROW` (R7): octets per hex-dump row. -/
def rowOctets : Nat := 16

/-- `PRINT_LO` (R7). -/
def printLo : Nat := 33

/-- `PRINT_HI` (R7). -/
def printHi : Nat := 126

/-- `PROTO_TCP` (R7). -/
def protoTcp : Nat := 6

/-- `PROTO_UDP` (R7). -/
def protoUdp : Nat := 17

/-- The most iterations a RUN makes: thirty frames and one stop (R8, R172, R281). -/
def maxIterations : Nat := 31

/-- `TOS_MAP` (R144, D20): a permutation of thru, delay and trsv[0] over the bits 0, 1, 2 of the high nibble of the
type-of-service byte. A constructor names the three in the order of the bits they take, bit 0 first. -/
inductive TosMap where
  | thruDelayRsv
  | thruRsvDelay
  | delayThruRsv
  | delayRsvThru
  | rsvThruDelay
  | rsvDelayThru
deriving DecidableEq, Repr

/-- The high-nibble bit that is `thru` under a map. -/
def TosMap.thruBit : TosMap → Nat
  | .thruDelayRsv => 0
  | .thruRsvDelay => 0
  | .delayThruRsv => 1
  | .delayRsvThru => 2
  | .rsvThruDelay => 1
  | .rsvDelayThru => 2

/-- The high-nibble bit that is `delay` under a map. -/
def TosMap.delayBit : TosMap → Nat
  | .thruDelayRsv => 1
  | .thruRsvDelay => 2
  | .delayThruRsv => 0
  | .delayRsvThru => 0
  | .rsvThruDelay => 2
  | .rsvDelayThru => 1

/-- The high-nibble bit that is `trsv[0]` under a map. -/
def TosMap.rsvBit : TosMap → Nat
  | .thruDelayRsv => 2
  | .thruRsvDelay => 1
  | .delayThruRsv => 2
  | .delayRsvThru => 1
  | .rsvThruDelay => 0
  | .rsvDelayThru => 0

/-- The open parameters of R7: `TOS_MAP`, `HD_GAP` (spaces between the hex area and the ASCII column) and `EOL`
(the sequence of codes that ends a hex-dump row). -/
structure Params where
  tosMap : TosMap
  hdGap : Nat
  eol : List Byte
deriving DecidableEq, Repr

/-- The code is one of the sixteen lowercase hex digit characters of R110. -/
def isHexDigitCode (c : Byte) : Bool :=
  (decide (0x30 ≤ c.toNat) && decide (c.toNat ≤ 0x39)) || (decide (0x61 ≤ c.toNat) && decide (c.toNat ≤ 0x66))

/-- A row terminator D31 admits: a non-empty sequence of seven-bit codes that holds no hex digit. -/
def eolLegal (eol : List Byte) : Bool :=
  !eol.isEmpty && eol.all fun c => !isHexDigitCode c && decide (c.toNat < 128)

end Sys2Proof.Config
end

