-- ==== Sys2Proof/Machine/State.lean ====
section
/-! DEFINITION. The state of the DNP1-HP block (R20), the reasons a step can stop, and the state after reset (R50). -/

namespace Sys2Proof.Machine

/-- The classification tag of an EtherType (R29, R105). Its fourth code is never produced (U6) and has no constructor. -/
inductive EtherClass where
  | ip
  | arp
  | unknown
deriving DecidableEq, Repr

/-- The classification tag of an IPv4 protocol (R31, R105). -/
inductive ProtoClass where
  | tcp
  | udp
  | unknown
deriving DecidableEq, Repr

/-- The values of `STATUS.code` (R231); the codes 9 to 15 are never produced (U6) and have no constructor. -/
inductive Code where
  | ok
  | truncatedHeader
  | invalidHeaderLength
  | incompleteFrame
  | trailingDataTooShort
  | invalidTotalLength
  | illegalCommand
  | bufferFull
  | endOfBuffer
deriving DecidableEq, Repr

/-- Why the splitter stopped: the values `STATUS.stopcode` takes while `STATUS.stopped` is 1 (R26, R231). -/
inductive StopReason where
  | invalidHeaderLength
  | incompleteFrame
  | trailingDataTooShort
  | invalidTotalLength
  | endOfBuffer
deriving DecidableEq, Repr

/-- A MAC address: six octets, octet 0 the first in the buffer (R29). -/
structure Mac where
  o0 : Byte
  o1 : Byte
  o2 : Byte
  o3 : Byte
  o4 : Byte
  o5 : Byte
deriving DecidableEq, Repr

/-- An IPv4 address: four octets, octet 0 the first in the buffer (R31, R150). -/
structure IpAddr where
  o0 : Byte
  o1 : Byte
  o2 : Byte
  o3 : Byte
deriving DecidableEq, Repr

/-- The registers of the E group (R29). -/
structure EthHeader where
  dmac : Mac
  smac : Mac
  et0 : Byte
  et1 : Byte
  cls : EtherClass
deriving DecidableEq, Repr

/-- The registers of the I group that a descriptor beat carries: all of R31 but `I.hend` and `I.pend` (R45). -/
structure IpFields where
  ver : BitVec 4
  ihl : BitVec 4
  hlen : BitVec 6
  tos : Byte
  prec : BitVec 3
  delay : Bool
  thru : Bool
  reli : Bool
  trsv : BitVec 2
  tlen : BitVec 16
  epsize : BitVec 17
  ident : BitVec 16
  frsv : Bool
  df : Bool
  mf : Bool
  foff : BitVec 13
  ttl : Byte
  proto : Byte
  pclass : ProtoClass
  csum0 : Byte
  csum1 : Byte
  src : IpAddr
  dst : IpAddr
  opt : Bool
deriving DecidableEq, Repr

/-- The registers of the I group (R31): the fields of a beat, and the two cursor positions of decision D23. -/
structure IpHeader extends IpFields where
  hend : BitVec 12
  pend : BitVec 17
deriving DecidableEq, Repr

/-- One beat of the descriptor stream (R45): one emitted DecodedFrame. -/
structure Descriptor where
  fstart : BitVec 11
  fend : BitVec 11
  e : EthHeader
  i : IpFields
deriving DecidableEq, Repr

/-- One beat emitted on either output stream (R45, R46). -/
inductive Beat where
  | desc (d : Descriptor)
  | char (c : Byte)
deriving DecidableEq, Repr

/-- What the host does next at the block's ports: it puts an operation on the command port or the bit-field port, it
samples the register read port at an address (R33), or it asserts `rst` for a rising edge (R260). DEDUCED,
notes/assumptions/1.md and 2.md. -/
inductive HostInput where
  | issue (p : PortWord)
  | readRegister (addr : BitVec 6)
  | assertRst
deriving DecidableEq, Repr

/-- The datagram buffer: (address, byte) pairs with strictly rising addresses below `BUF_SIZE`. An address that is not
listed holds no value: nothing has been pushed there since power-on (R21, R50). DESIGN CHOICE,
notes/assumptions/5.md. -/
abbrev Memory := List Host.Cell

/-- The architectural state of R20. `STATUS` is held as its fields: `stopped` and `stopcode` are `stopReason` (there is a
stop code exactly when the splitter has stopped, U6; notes/assumptions/7.md), and `evalid` and `ivalid` say whether the groups `eth` and `ip`
hold a value (R30, U1; notes/assumptions/4.md). The histories `DESC` and `TXT` are the two kinds of beat in `out`, one list because their
order across the streams is part of the machine's event history (R48; notes/assumptions/8.md). The last three fields are the MODEL's own: what
the bit-field port and the read port last showed the host, and what the host does next (notes/assumptions/1.md and
6.md). -/
structure State where
  /-- `BUF` (R21). -/
  buf : Memory
  /-- `LEN` (R22). -/
  len : BitVec 11
  /-- `CUR` (R23). -/
  cur : BitVec 11
  /-- `FCNT` (R24). -/
  fcnt : BitVec 8
  /-- `FSTART` (R25). -/
  fstart : BitVec 11
  /-- `FEND` (R25). -/
  fend : BitVec 11
  /-- `STATUS.code` (R26). -/
  code : Code
  /-- `STATUS.stopped` and `STATUS.stopcode` (R26, R27). -/
  stopReason : Option StopReason
  /-- `STATUS.sealed` (R26, R28). -/
  sealed : Bool
  /-- The E group and `STATUS.evalid` (R29, R30). -/
  eth : Option EthHeader
  /-- The I group and `STATUS.ivalid` (R30, R31). -/
  ip : Option IpHeader
  /-- `DESC` and `TXT`, every beat emitted since reset, oldest first (R45 to R48). -/
  out : List Beat
  /-- The level of `bfx_out` for the inputs the host last put on the bit-field port (R121). The model's own. -/
  bfxOut : BitVec 4
  /-- The word `rd_data` showed when the host last sampled the read port (R33). The model's own. -/
  rdData : Word
  /-- What the host does at the ports, next first: the program, which lives in the host (R20). The model's own. -/
  inbox : List HostInput
deriving DecidableEq, Repr

/-- Why a step stops with a fault. No command raises one in a state the block can reach: the first is the spec's own
treatment of a host's error, and the other three mark states that no run reaches. -/
inductive Fault where
  /-- Raised by the register read port alone: a read of an E or I register while its group holds no value (R30, R272;
  U1 asks for a fault). Safe: the hardware returns unspecified bits. -/
  | unspecifiedRegister
  /-- Raised by ETH, IP4, NEXT, RUN and DUMP: a read of a buffer cell at or above `LEN` or that nothing was pushed to,
  which R13 leaves undefined and R66 says cannot occur. Safe: the model stops. -/
  | unloadedCell
  /-- Raised by PUSH: a write at an address that is no cell of the buffer (R60). Safe: the model stops. -/
  | noSuchCell
  /-- Raised by RUN: more iterations than R172 and R281 say a RUN can make. Safe: the model stops. -/
  | runTooLong
deriving DecidableEq, Repr

/-- Why a step is refused. -/
inductive Refusal where
  /-- Raised by an arm of `exec` whose instruction has no meaning yet. Safe: the model stops. No arm raises it now. -/
  | notModelled (mnemonic : String)
deriving DecidableEq, Repr

/-- The outcome of one operation. -/
abbrev Result := Host.Outcome State Fault Refusal

/-- The machine right after reset (R50, R261): control registers zero, the E and I groups without a value, nothing
emitted, nothing pushed. The host has done nothing yet; `bfxOut` and `rdData` are the model's own and their zeros are
a DESIGN CHOICE (notes/assumptions/6.md). -/
def State.reset : State where
  buf := []
  len := 0#11
  cur := 0#11
  fcnt := 0#8
  fstart := 0#11
  fend := 0#11
  code := .ok
  stopReason := none
  sealed := false
  eth := none
  ip := none
  out := []
  bfxOut := 0#4
  rdData := 0#32
  inbox := []

end Sys2Proof.Machine
end

