-- ==== Sys2Proof/Machine/Ops.lean ====
section
/-! DEFINITION. The shared operations: the two functions of the bit-field extractor (R121, R122), the datagram buffer
(R13, R21, R66), the register groups, the output streams (R47), and taking a condition and leaving one (R236 to R239,
R247, R212, R260). -/

namespace Sys2Proof.Machine

/-- The setting of the open parameters the machine runs with: the defaults the spec states (R7, D20, D30, D31).
DESIGN CHOICE, notes/assumptions/3.md. -/
def params : Config.Params where
  tosMap := .thruDelayRsv
  hdGap := 1
  eol := [0x0A#8]

/-! ### The bit-field extractor -/

/-- `hexDigit(v, p)`: the nibble of a natural number at a position, 0 the least significant (R13, R121). -/
def hexDigit (v p : Nat) : Nat := v / 16 ^ p % 16

/-- `binaryDigit(v, p)`: the bit of a natural number at a position (R13, R122). -/
def binaryDigit (v p : Nat) : Nat := v / 2 ^ p % 2

/-- A one-bit field: the binary digit as a flag. -/
def flagDigit (v p : Nat) : Bool := binaryDigit v p == 1

/-! ### The datagram buffer -/

/-- The byte at an address, none where nothing has been written. -/
def Memory.read : Memory → Nat → Option Byte
  | [], _ => none
  | (k, b) :: m, a => if k = a then some b else Memory.read m a

/-- The memory after a byte is written at an address, in canonical form. -/
def Memory.write : Memory → Nat → Byte → Memory
  | [], a, v => [(a, v)]
  | (k, b) :: m, a, v =>
    if a < k then (a, v) :: (k, b) :: m
    else if a = k then (a, v) :: m
    else (k, b) :: Memory.write m a v

/-- Every address listed is at least `lo`, the addresses rise strictly, and all are cells of the buffer. -/
def Memory.wfFrom : Nat → Memory → Bool
  | _, [] => true
  | lo, (k, _) :: m => decide (lo ≤ k) && decide (k < Config.bufSize) && Memory.wfFrom (k + 1) m

/-- The canonical form of a memory. (No entry can equal what an unlisted address reads as: that is no value.) -/
def Memory.wf (m : Memory) : Bool := Memory.wfFrom 0 m

/-- `BUF[a]`, which R13 defines only below `LEN`. -/
def State.bufRead (s : State) (a : Nat) : Option Byte :=
  if a < s.len.toNat then Memory.read s.buf a else none

/-- Every cell of `[a, a+n)` may be read (R13, R66). -/
def State.readable (s : State) (a n : Nat) : Bool :=
  (List.range n).all fun i => (s.bufRead (a + i)).isSome

/-- The byte the engine reads at an address. It is used only at addresses that `State.readable` has passed, where it is
the byte `State.bufRead` answers; elsewhere its value means nothing. -/
def State.byteAt (s : State) (a : Nat) : Byte := (s.bufRead a).getD 0#8

/-- The bytes `BUF[first .. last)`. -/
def State.bytes (s : State) (first last : Nat) : List Byte :=
  (List.range (last - first)).map fun i => s.byteAt (first + i)

/-- `MemWrite(a, 1, v)` (R13). -/
def State.memWrite (s : State) (a : Nat) (v : Byte) : Result :=
  if a < Config.bufSize then .next { s with buf := Memory.write s.buf a v } else .fault .noSuchCell

/-- `LEN - off`, an integer that may be negative (R14, R131, R141). -/
def State.remaining (s : State) (off : Nat) : Int := (s.len.toNat : Int) - (off : Int)

/-! ### Sequencing -/

/-- Continue with the next state; a fault or a refusal ends the operation. -/
def andThen (o : Result) (k : State → Result) : Result :=
  match o with
  | .next s => k s
  | .fault f => .fault f
  | .refused r => .refused r

/-! ### Register updates -/

/-- `STATUS.code <- c`. -/
def State.setCode (s : State) (c : Code) : State := { s with code := c }

/-- `LEN <- n`. -/
def State.setLen (s : State) (n : BitVec 11) : State := { s with len := n }

/-- `STATUS.sealed <- 1` (R28). -/
def State.markSealed (s : State) : State := { s with sealed := true }

/-- `E <- h; STATUS.evalid <- 1` (R29). -/
def State.setEth (s : State) (h : EthHeader) : State := { s with eth := some h }

/-- `I <- h; STATUS.ivalid <- 1` (R31). -/
def State.setIp (s : State) (h : IpHeader) : State := { s with ip := some h }

/-- `FSTART <- a; FEND <- b` (R25). -/
def State.setRange (s : State) (a b : BitVec 11) : State := { s with fstart := a, fend := b }

/-- `FCNT <- FCNT + 1; CUR <- t` (R23, R24). -/
def State.advance (s : State) (t : BitVec 11) : State := { s with fcnt := s.fcnt + 1#8, cur := t }

/-- The level the bit-field port shows (R121, R122). -/
def State.setBfxOut (s : State) (n : BitVec 4) : State := { s with bfxOut := n }

/-- The word the read port shows (R33). -/
def State.setRdData (s : State) (w : Word) : State := { s with rdData := w }

/-- The host's inputs that remain. -/
def State.setInbox (s : State) (l : List HostInput) : State := { s with inbox := l }

/-! ### The output streams -/

/-- `emitDesc(d)`: append to the descriptor stream (R45, R47). -/
def State.emitDesc (s : State) (d : Descriptor) : State := { s with out := s.out ++ [.desc d] }

/-- `emitChar(c)` for each code in order: append to the text stream (R46, R47). -/
def State.emitText (s : State) (cs : List Byte) : State := { s with out := s.out ++ cs.map .char }

/-- The descriptor of a beat of the descriptor stream. -/
def Beat.descriptor? : Beat → Option Descriptor
  | .desc d => some d
  | .char _ => none

/-- The code of a beat of the text stream. -/
def Beat.code? : Beat → Option Byte
  | .desc _ => none
  | .char c => some c

/-- `DESC`: the descriptors emitted since reset (R47). -/
def State.descHistory (s : State) : List Descriptor := s.out.filterMap Beat.descriptor?

/-- `TXT`: the character codes emitted since reset (R47). -/
def State.txtHistory (s : State) : List Byte := s.out.filterMap Beat.code?

/-! ### Taking a condition, and leaving one -/

/-- The code a stop is reported with (R231). -/
def StopReason.code : StopReason → Code
  | .invalidHeaderLength => .invalidHeaderLength
  | .incompleteFrame => .incompleteFrame
  | .trailingDataTooShort => .trailingDataTooShort
  | .invalidTotalLength => .invalidTotalLength
  | .endOfBuffer => .endOfBuffer

/-- What a condition ends: a command turned away, a stand-alone decode, or the splitter (R237, R238, R239). -/
inductive Ending where
  | refusal
  | ethDecode
  | ipDecode
  | splitter (r : StopReason)
deriving DecidableEq, Repr

/-- `raise C` (R236): the command ends, `STATUS.code` gets the code, and beside it exactly what the kind of ending says.
A refusal writes nothing else (R239); a failed decode seals the buffer and leaves its group without a value (R237); a
stop records the stop code, seals, and leaves both groups without a value (R238). Nothing is saved and control goes
nowhere. -/
def State.raise (s : State) (c : Code) : Ending → State
  | .refusal => { s with code := c }
  | .ethDecode => { s with code := c, sealed := true, eth := none }
  | .ipDecode => { s with code := c, sealed := true, ip := none }
  | .splitter r => { s with code := c, stopReason := some r, sealed := true, eth := none, ip := none }

/-- `stop(c)` of R170. -/
def State.stopWith (s : State) (r : StopReason) : State := s.raise r.code (.splitter r)

/-- The state CLR leaves (R212), the block's return from a stop (R247): every register as after reset, `BUF`, the
histories and the ports as they are. -/
def State.clear (s : State) : State :=
  { s with
    len := 0#11, cur := 0#11, fcnt := 0#8, fstart := 0#11, fend := 0#11
    code := .ok, stopReason := none, sealed := false, eth := none, ip := none }

/-- The state a rising edge with `rst` = 1 leaves (R260): that of CLR with both histories emptied (R51, R262). `BUF` is
not cleared (R50), and the bit-field port has no state for a reset to change (R120). -/
def State.applyRst (s : State) : State := { s.clear with out := [] }

end Sys2Proof.Machine
end

