-- ==== Sys2Proof/Machine/Operands.lean ====
section
/-! DEFINITION. The operand forms: how an operand is narrowed to the register that receives it, the checks the commands
make on their operands before they read the buffer (R97, R131, R141, R191), and how wider values are assembled from the
bytes of the buffer (R61). -/

namespace Sys2Proof.Machine

/-- A buffer address in an 11-bit register (R22, R23, R25). -/
def toAddr (a : Nat) : BitVec 11 := BitVec.ofNat 11 a

/-- The byte operand of PUSH: `d = b[7:0]` (R213). -/
def toByte (d : Nat) : Byte := BitVec.ofNat 8 d

/-- Fewer than `n` bytes remain from `off`: the condition TruncatedHeader of R131 and R141, and the loop condition of
R173. An offset past `LEN` falls under it like any short remainder. -/
def State.short (s : State) (off n : Nat) : Bool := decide (s.remaining off < (n : Int))

/-- The range of DUMP is legal: `s <= e <= LEN` (R191). -/
def State.rangeLegal (s : State) (first last : Nat) : Bool :=
  decide (first ≤ last) && decide (last ≤ s.len.toNat)

/-- `MemRead(a, 2) = 256*BUF[a] + BUF[a+1]`, big-endian (R13, R61), over a way to read a byte. -/
def readPair (rd : Nat → Byte) (a : Nat) : Nat := 256 * (rd a).toNat + (rd (a + 1)).toNat

/-- Six octets in buffer order (R62). -/
def readMac (rd : Nat → Byte) (a : Nat) : Mac where
  o0 := rd a
  o1 := rd (a + 1)
  o2 := rd (a + 2)
  o3 := rd (a + 3)
  o4 := rd (a + 4)
  o5 := rd (a + 5)

/-- Four octets in buffer order (R62, R150). -/
def readIpAddr (rd : Nat → Byte) (a : Nat) : IpAddr where
  o0 := rd a
  o1 := rd (a + 1)
  o2 := rd (a + 2)
  o3 := rd (a + 3)

end Sys2Proof.Machine
end

