-- ==== Sys2Proof/Machine/Flags.lean ====
section
/-! DEFINITION. The status fields and their codes: the classification codes (R105), the condition codes (R231), the
`STATUS` word (R26), and the level outputs (R42, R43). -/

namespace Sys2Proof.Machine

/-- `E.class` as a number (R105). -/
def EtherClass.bits : EtherClass → BitVec 2
  | .ip => 0#2
  | .arp => 1#2
  | .unknown => 2#2

/-- `I.pclass` as a number (R105). -/
def ProtoClass.bits : ProtoClass → BitVec 2
  | .tcp => 0#2
  | .udp => 1#2
  | .unknown => 2#2

/-- `STATUS.code` as a number (R231). -/
def Code.bits : Code → BitVec 4
  | .ok => 0#4
  | .truncatedHeader => 1#4
  | .invalidHeaderLength => 2#4
  | .incompleteFrame => 3#4
  | .trailingDataTooShort => 4#4
  | .invalidTotalLength => 5#4
  | .illegalCommand => 6#4
  | .bufferFull => 7#4
  | .endOfBuffer => 8#4

/-- `STATUS.stopped` (R26, R27). -/
def State.stopped (s : State) : Bool := s.stopReason.isSome

/-- `STATUS.stopcode` as a number: 0 while the splitter has not stopped (R26, U6). -/
def State.stopcode (s : State) : BitVec 4 :=
  match s.stopReason with
  | none => 0#4
  | some r => r.code.bits

/-- `STATUS.evalid` (R26, R30). -/
def State.evalid (s : State) : Bool := s.eth.isSome

/-- `STATUS.ivalid` (R26, R30). -/
def State.ivalid (s : State) : Bool := s.ip.isSome

/-- A field of a register word, its least significant bit at bit `lo`. -/
def fieldAt {n : Nat} (lo : Nat) (x : BitVec n) : Nat := x.toNat * 2 ^ lo

/-- A one-bit field of a register word. -/
def flagAt (lo : Nat) (x : Bool) : Nat := fieldAt lo (BitVec.ofBool x)

/-- The `STATUS` word (R26). -/
def State.statusWord (s : State) : Word :=
  BitVec.ofNat 32
    (fieldAt 0 s.code.bits + fieldAt 4 s.stopcode + flagAt 8 s.stopped + flagAt 9 s.sealed + flagAt 10 s.evalid
      + flagAt 11 s.ivalid)

/-- The level of `err`: `STATUS.code` is neither 0 nor 8 (R43). -/
def State.err (s : State) : Bool := s.code.bits != 0#4 && s.code.bits != 8#4

/-- The level of `idle`: at a command boundary no command is executing (R42). The model's states are the command
boundaries (R271), so the level is 1 in each of them; `cmd_ready` is 1 with it (R41). DEDUCED,
notes/assumptions/2.md. -/
def State.idle (_ : State) : Bool := true

end Sys2Proof.Machine
end

