-- ==== Sys2Proof/Machine/BitField.lean ====
section
/-! DEFINITION. The bit-field extractor's port (R120 to R122): the meanings of HEXDIGIT and BINDIGIT. -/

namespace Sys2Proof.Machine

/-- HEXDIGIT(value, position): `bfx_out <- hexDigit(value, position)`, no flag, no condition (R121); nothing else in the
block changes (R120). -/
def execHexdigit (value pos : Nat) (s : State) : Result :=
  .next (s.setBfxOut (BitVec.ofNat 4 (hexDigit value pos)))

/-- BINDIGIT(value, position): `bfx_out <- zext_4(binaryDigit(value, position))` (R122); nothing else changes (R120). -/
def execBindigit (value pos : Nat) (s : State) : Result :=
  .next (s.setBfxOut (BitVec.ofNat 4 (binaryDigit value pos)))

end Sys2Proof.Machine
end

