-- ==== Sys2Proof/Machine/Control.lean ====
section
/-! DEFINITION. The control and load commands (R210 to R213): the meanings of NOP, CLR and PUSH. -/

namespace Sys2Proof.Machine

/-- NOP: nothing, `STATUS.code` keeping the previous command's outcome (R211). -/
def execNop (s : State) : Result := .next s

/-- CLR: begin a new datagram (R212). -/
def execClr (s : State) : Result := .next s.clear

/-- PUSH d: append one byte to the buffer (R213). Sealed is tested before the buffer's fill (R243). -/
def execPush (d : Nat) (s : State) : Result :=
  if s.sealed then .next (s.raise .illegalCommand .refusal)
  else if s.len.toNat = Config.bufSize then .next (s.raise .bufferFull .refusal)
  else andThen (s.memWrite s.len.toNat (toByte d)) fun t => .next ((t.setLen (s.len + 1#11)).setCode .ok)

end Sys2Proof.Machine
end

