-- ==== Sys2Proof/Machine/Ethernet.lean ====
section
/-! DEFINITION. The Ethernet header decoder (R130 to R134): the decode as a function of the buffer, and the meaning of
ETH. -/

namespace Sys2Proof.Machine

/-- `classifyEther(x, y)` (R133, R81). The pair `(0x00, 0x00)` is ARP as the source has it (conflict C3). -/
def classifyEther (x y : Byte) : EtherClass :=
  if x = 0x08#8 ∧ y = 0x00#8 then .ip
  else if x = 0x00#8 ∧ y = 0x00#8 then .arp
  else .unknown

/-- `decodeEth(off)` of R132 after its bounds check, over a way to read a byte; the offsets are those of R80. -/
def ethHeaderAt (rd : Nat → Byte) (off : Nat) : EthHeader where
  dmac := readMac rd off
  smac := readMac rd (off + 6)
  et0 := rd (off + 12)
  et1 := rd (off + 13)
  cls := classifyEther (rd (off + 12)) (rd (off + 13))

/-- ETH off (R130): seal, drop the E group, check that 14 bytes remain (R131), decode and store. -/
def execEth (off : Nat) (s : State) : Result :=
  if s.short off Config.ethLen then .next (s.raise .truncatedHeader .ethDecode)
  else if s.readable off Config.ethLen then
    .next ((s.markSealed.setEth (ethHeaderAt s.byteAt off)).setCode .ok)
  else .fault .unloadedCell

end Sys2Proof.Machine
end

