-- ==== Sys2Proof/Machine/HexDump.lean ====
section
/-! DEFINITION. The hex-dump text formatter (R190 to R200) and its character codes (R110, R111): the text as a pure
function of a byte sequence, and the meaning of DUMP. -/

namespace Sys2Proof.Machine

/-- The code of a space (R110). -/
def spaceCode : Byte := 0x20#8

/-- The code of `.` (R110). -/
def dotCode : Byte := 0x2E#8

/-- `hexchar(n)` for a digit (R111). -/
def hexChar (n : Nat) : Byte := if n ≤ 9 then BitVec.ofNat 8 (0x30 + n) else BitVec.ofNat 8 (0x61 + (n - 10))

/-- `hex2(v)`: the two digits of a byte, the more significant first (R111). -/
def hex2 (v : Nat) : List Byte := [hexChar (hexDigit v 1), hexChar (hexDigit v 0)]

/-- `hex4(v)`: the low four digits of a number, the most significant first (R111). -/
def hex4 (v : Nat) : List Byte :=
  [hexChar (hexDigit v 3), hexChar (hexDigit v 2), hexChar (hexDigit v 1), hexChar (hexDigit v 0)]

/-- `asciiOf(v)`: the byte itself in the printable range, `.` elsewhere (R194). -/
def asciiOf (v : Byte) : Byte :=
  if Config.printLo ≤ v.toNat ∧ v.toNat ≤ Config.printHi then v else dotCode

/-- Cell `j` of a row: the two digits of its byte, or two spaces where the row has none (R192, R195). -/
def hexCell (row : List Byte) (j : Nat) : List Byte :=
  match row[j]? with
  | some b => hex2 b.toNat
  | none => [spaceCode, spaceCode]

/-- The hex area of a row: sixteen cells with a space between neighbours (R192). -/
def hexArea (row : List Byte) : List Byte :=
  (List.range Config.rowOctets).flatMap fun j => hexCell row j ++ if j < Config.rowOctets - 1 then [spaceCode] else []

/-- One row: offset, space, hex area, `HD_GAP` spaces, the ASCII column, `EOL` (R192). -/
def hexRow (p : Config.Params) (base : Nat) (row : List Byte) : List Byte :=
  hex4 base ++ [spaceCode] ++ hexArea row ++ List.replicate p.hdGap spaceCode ++ row.map asciiOf ++ p.eol

/-- `ceil(n / 16)` (R192). -/
def rowCount (n : Nat) : Nat := (n + (Config.rowOctets - 1)) / Config.rowOctets

/-- The bytes of a row: up to sixteen from its base (R192). -/
def rowBytes (b : List Byte) (base : Nat) : List Byte := (b.drop base).take Config.rowOctets

/-- `hexDump(b)` (R192): the rows in order, offsets counted from the first byte of the sequence (R196). -/
def hexDump (p : Config.Params) (b : List Byte) : List Byte :=
  (List.range (rowCount b.length)).flatMap fun row =>
    hexRow p (Config.rowOctets * row) (rowBytes b (Config.rowOctets * row))

/-- Emit the dump of `BUF[first .. last)` (R180, R190). -/
def State.dumpRange (s : State) (p : Config.Params) (first last : Nat) : Result :=
  if s.readable first (last - first) then .next (s.emitText (hexDump p (s.bytes first last)))
  else .fault .unloadedCell

/-- DUMP s, e (R190): refused when the range is not legal (R191); otherwise seal, emit the text, code 0. -/
def execDump (first last : Nat) (s : State) : Result :=
  if s.rangeLegal first last then
    andThen (s.markSealed.dumpRange params first last) fun t => .next (t.setCode .ok)
  else .next (s.raise .illegalCommand .refusal)

end Sys2Proof.Machine
end

