-- ==== Sys2Proof/Machine/Ipv4.lean ====
section
/-! DEFINITION. The IPv4 header decoder (R140 to R155): the decode as a function of the buffer, and the meaning of IP4.
-/

namespace Sys2Proof.Machine

/-- What `decodeTos` of R144 returns. -/
structure TosFields where
  prec : BitVec 3
  delay : Bool
  thru : Bool
  reli : Bool
  trsv : BitVec 2
deriving DecidableEq, Repr

/-- `decodeTos(tos)` (R144, R84), under an assignment of the three open high-nibble bits (`TOS_MAP`). -/
def decodeTos (m : Config.TosMap) (tos : Byte) : TosFields :=
  let lo := hexDigit tos.toNat 0
  let hi := hexDigit tos.toNat 1
  { prec := BitVec.ofNat 3 (binaryDigit lo 1 * 1 + binaryDigit lo 2 * 2 + binaryDigit lo 3 * 4)
    reli := flagDigit lo 0
    thru := flagDigit hi m.thruBit
    delay := flagDigit hi m.delayBit
    trsv := BitVec.ofNat 2 (binaryDigit hi m.rsvBit + 2 * binaryDigit hi 3) }

/-- What `decodeFrag` of R147 returns. -/
structure FragFields where
  frsv : Bool
  df : Bool
  mf : Bool
  foff : BitVec 13
deriving DecidableEq, Repr

/-- `decodeFrag(f0, f1)` (R147, R85). -/
def decodeFrag (f0 f1 : Byte) : FragFields :=
  let fh := hexDigit f0.toNat 1
  { frsv := flagDigit fh 3
    df := flagDigit fh 2
    mf := flagDigit fh 1
    foff := BitVec.ofNat 13 (f1.toNat + 256 * hexDigit f0.toNat 0 + 4096 * binaryDigit fh 0) }

/-- `classifyProto(p)` (R148, R86). -/
def classifyProto (p : Byte) : ProtoClass :=
  if p.toNat = Config.protoTcp then .tcp
  else if p.toNat = Config.protoUdp then .udp
  else .unknown

/-- The two conditions the decode can raise after its bounds check (R152, R153). -/
inductive IpCondition where
  | invalidHeaderLength
  | invalidTotalLength
deriving DecidableEq, Repr

/-- The condition as a code (R231). -/
def IpCondition.code : IpCondition → Code
  | .invalidHeaderLength => .invalidHeaderLength
  | .invalidTotalLength => .invalidTotalLength

/-- The condition as a stop of the splitter (R170). -/
def IpCondition.stop : IpCondition → StopReason
  | .invalidHeaderLength => .invalidHeaderLength
  | .invalidTotalLength => .invalidTotalLength

/-- `headerLengthBytes` of the header at an address: four times the low nibble of its byte 0 (R143). -/
def ipHlenAt (rd : Nat → Byte) (off : Nat) : Nat := 4 * hexDigit (rd off).toNat 0

/-- `totalLength` of the header at an address (R145). -/
def ipTlenAt (rd : Nat → Byte) (off : Nat) : Nat := readPair rd (off + 2)

/-- The fields steps 1 to 12 of R142 compute, at the offsets of R82. -/
def ipHeaderAt (m : Config.TosMap) (rd : Nat → Byte) (off : Nat) : IpHeader :=
  let b0 := (rd off).toNat
  let hlen := ipHlenAt rd off
  let tosByte := rd (off + 1)
  let tos := decodeTos m tosByte
  let tlen := ipTlenAt rd off
  let frag := decodeFrag (rd (off + 6)) (rd (off + 7))
  { ver := BitVec.ofNat 4 (hexDigit b0 1)
    ihl := BitVec.ofNat 4 (hexDigit b0 0)
    hlen := BitVec.ofNat 6 hlen
    tos := tosByte
    prec := tos.prec
    delay := tos.delay
    thru := tos.thru
    reli := tos.reli
    trsv := tos.trsv
    tlen := BitVec.ofNat 16 tlen
    epsize := BitVec.ofNat 17 (tlen + 14)
    ident := BitVec.ofNat 16 (readPair rd (off + 4))
    frsv := frag.frsv
    df := frag.df
    mf := frag.mf
    foff := frag.foff
    ttl := rd (off + 8)
    proto := rd (off + 9)
    pclass := classifyProto (rd (off + 9))
    csum0 := rd (off + 10)
    csum1 := rd (off + 11)
    src := readIpAddr rd (off + 12)
    dst := readIpAddr rd (off + 16)
    opt := decide (Config.ipMin < hlen)
    hend := BitVec.ofNat 12 (off + hlen)
    pend := BitVec.ofNat 17 (off + tlen) }

/-- `decodeIp(off)` of R142 after its bounds check: the header, or the first condition that applies (R152, R153,
R154). -/
def decodeIpAt (m : Config.TosMap) (rd : Nat → Byte) (off : Nat) : Except IpCondition IpHeader :=
  if ipHlenAt rd off < Config.ipMin then .error .invalidHeaderLength
  else if ipTlenAt rd off < ipHlenAt rd off then .error .invalidTotalLength
  else .ok (ipHeaderAt m rd off)

/-- IP4 off (R140): seal, drop the I group, check that 20 bytes remain (R141), decode and store. -/
def execIp4 (off : Nat) (s : State) : Result :=
  if s.short off Config.ipMin then .next (s.raise .truncatedHeader .ipDecode)
  else if s.readable off Config.ipMin then
    match decodeIpAt params.tosMap s.byteAt off with
    | .error c => .next (s.raise c.code .ipDecode)
    | .ok h => .next ((s.markSealed.setIp h).setCode .ok)
  else .fault .unloadedCell

end Sys2Proof.Machine
end

