-- ==== Sys2Proof/Machine/Splitter.lean ====
section
/-! DEFINITION. The frame boundary detector (R170 to R181): one iteration, the loop with its dumps, and the meanings of
NEXT and RUN. -/

namespace Sys2Proof.Machine

/-- The beat of a decoded frame (R45, R176): its range and every field of both groups but the two cursor positions. -/
def frameDescriptor (first last : BitVec 11) (e : EthHeader) (i : IpHeader) : Descriptor where
  fstart := first
  fend := last
  e := e
  i := i.toIpFields

/-- The end of an iteration that emits a frame (R170, R176): range, both groups, the beat, the count and the cursor. -/
def State.emitFrame (s : State) (e : EthHeader) (i : IpHeader) (frameEnd : Nat) : State :=
  let t := (((s.markSealed.setRange s.cur (toAddr frameEnd)).setEth e).setIp i)
  ((t.emitDesc (frameDescriptor s.cur (toAddr frameEnd) e i)).advance (toAddr frameEnd)).setCode .ok

/-- Why the splitter stops when fewer than 34 bytes remain (R173): the clean end when none remain and the cursor has
moved, otherwise TrailingDataTooShort, the empty buffer among the latter (conflict C2). -/
def State.shortStop (s : State) : StopReason :=
  if s.remaining s.cur.toNat = 0 ∧ s.cur ≠ 0#11 then .endOfBuffer else .trailingDataTooShort

/-- One iteration of the FrameSplitter at the cursor (R170), in the priority of R243: the re-report of a stopped splitter
(R171), too few bytes (R173), the two conditions of the IPv4 decode (R152, R153), the frame end past `LEN` (R175, conflict
C4), and otherwise the frame. Both decoders run whatever they find (R174). -/
def splitOnce (p : Config.Params) (s : State) : Result :=
  match s.stopReason with
  | some r => .next (s.setCode r.code)
  | none =>
    if s.short s.cur.toNat Config.minFrame then .next (s.stopWith s.shortStop)
    else if s.readable s.cur.toNat Config.minFrame then
      match decodeIpAt p.tosMap s.byteAt (s.cur.toNat + Config.ethLen) with
      | .error c => .next (s.stopWith c.stop)
      | .ok ih =>
        let frameEnd := s.cur.toNat + Config.ethLen + ih.tlen.toNat
        if s.len.toNat < frameEnd then .next (s.stopWith .incompleteFrame)
        else .next (s.emitFrame (ethHeaderAt s.byteAt s.cur.toNat) ih frameEnd)
    else .fault .unloadedCell

/-- The loop of R180, with a bound on its iterations: perform an iteration, return on a code that is not 0, otherwise dump
the frame just emitted and go on. -/
def runLoop (p : Config.Params) : Nat → State → Result
  | 0, _ => .fault .runTooLong
  | n + 1, s =>
    andThen (splitOnce p s) fun t =>
      if t.code = .ok then andThen (t.dumpRange p t.fstart.toNat t.fend.toNat) (runLoop p n)
      else .next t

/-- NEXT (R170). -/
def execNext (s : State) : Result := splitOnce params s

/-- RUN (R180), of at most thirty-one iterations (R281). DEDUCED, notes/assumptions/9.md. -/
def execRun (s : State) : Result := runLoop params Config.maxIterations s

end Sys2Proof.Machine
end

