-- ==== Sys2Proof/Machine/Dispatch.lean ====
section
/-! DEFINITION. One arm per instruction, each a call of its meaning. -/

namespace Sys2Proof.Machine

def exec (i : Instr) (s : State) : Host.Outcome State Fault Refusal :=
  match i with
  | .hexdigit value pos => Sys2Proof.Machine.execHexdigit value pos s
  | .bindigit value pos => Sys2Proof.Machine.execBindigit value pos s
  | .nop => Sys2Proof.Machine.execNop s
  | .clr => Sys2Proof.Machine.execClr s
  | .push d => Sys2Proof.Machine.execPush d s
  | .eth off => Sys2Proof.Machine.execEth off s
  | .ip4 off => Sys2Proof.Machine.execIp4 off s
  | .next => Sys2Proof.Machine.execNext s
  | .run => Sys2Proof.Machine.execRun s
  | .dump first last => Sys2Proof.Machine.execDump first last s

end Sys2Proof.Machine
end

