-- ==== Sys2Proof/Machine/ReadPort.lean ====
section
/-! DEFINITION. The register read port (R33 to R35): the word at each address, and what the host's sampling of it
does. -/

namespace Sys2Proof.Machine

/-- A register word made of its fields. -/
def registerWord (fields : Nat) : Word := BitVec.ofNat 32 fields

/-- E_DMAC_HI and E_SMAC_HI: octets 0 and 1 (R33). -/
def Mac.highWord (m : Mac) : Word := registerWord (fieldAt 8 m.o0 + fieldAt 0 m.o1)

/-- E_DMAC_LO and E_SMAC_LO: octets 2 to 5 (R33). -/
def Mac.lowWord (m : Mac) : Word :=
  registerWord (fieldAt 24 m.o2 + fieldAt 16 m.o3 + fieldAt 8 m.o4 + fieldAt 0 m.o5)

/-- I_SRC and I_DST (R33, R150). -/
def IpAddr.word (a : IpAddr) : Word :=
  registerWord (fieldAt 24 a.o0 + fieldAt 16 a.o1 + fieldAt 8 a.o2 + fieldAt 0 a.o3)

/-- E_TYPE (R33). -/
def EthHeader.typeWord (h : EthHeader) : Word :=
  registerWord (fieldAt 8 h.et0 + fieldAt 0 h.et1 + fieldAt 16 h.cls.bits)

/-- I_VHL (R33). -/
def IpHeader.vhlWord (h : IpHeader) : Word :=
  registerWord (fieldAt 0 h.ihl + fieldAt 4 h.ver + fieldAt 8 h.hlen + flagAt 16 h.opt)

/-- I_TOS (R33). -/
def IpHeader.tosWord (h : IpHeader) : Word :=
  registerWord
    (fieldAt 0 h.tos + fieldAt 8 h.prec + flagAt 11 h.delay + flagAt 12 h.thru + flagAt 13 h.reli + fieldAt 14 h.trsv)

/-- I_FRAG (R33, R34). -/
def IpHeader.fragWord (h : IpHeader) : Word :=
  registerWord (fieldAt 0 h.foff + flagAt 13 h.mf + flagAt 14 h.df + flagAt 15 h.frsv)

/-- I_TTLP (R33). -/
def IpHeader.ttlpWord (h : IpHeader) : Word :=
  registerWord (fieldAt 0 h.ttl + fieldAt 8 h.proto + fieldAt 16 h.pclass.bits)

/-- I_CSUM (R33, R149). -/
def IpHeader.csumWord (h : IpHeader) : Word := registerWord (fieldAt 8 h.csum0 + fieldAt 0 h.csum1)

/-- I_END (R33). -/
def IpHeader.endWord (h : IpHeader) : Word := registerWord (fieldAt 0 h.pend + fieldAt 17 h.hend)

/-- The word `rd_data` shows for an address (R33); none where the hardware's data is unspecified, an E or I register
whose group holds no value (R30, R272). An address R33 does not list reads as zero (R35). -/
def State.readRegister (s : State) (addr : BitVec 6) : Option Word :=
  match addr.toNat with
  | 0x00 => some s.statusWord
  | 0x01 => some (registerWord (fieldAt 0 s.len))
  | 0x02 => some (registerWord (fieldAt 0 s.cur))
  | 0x03 => some (registerWord (fieldAt 0 s.fcnt))
  | 0x04 => some (registerWord (fieldAt 0 s.fstart + fieldAt 16 s.fend))
  | 0x08 => s.eth.map fun h => h.dmac.highWord
  | 0x09 => s.eth.map fun h => h.dmac.lowWord
  | 0x0A => s.eth.map fun h => h.smac.highWord
  | 0x0B => s.eth.map fun h => h.smac.lowWord
  | 0x0C => s.eth.map fun h => h.typeWord
  | 0x10 => s.ip.map fun h => h.vhlWord
  | 0x11 => s.ip.map fun h => h.tosWord
  | 0x12 => s.ip.map fun h => registerWord (fieldAt 0 h.tlen)
  | 0x13 => s.ip.map fun h => registerWord (fieldAt 0 h.epsize)
  | 0x14 => s.ip.map fun h => registerWord (fieldAt 0 h.ident)
  | 0x15 => s.ip.map fun h => h.fragWord
  | 0x16 => s.ip.map fun h => h.ttlpWord
  | 0x17 => s.ip.map fun h => h.csumWord
  | 0x18 => s.ip.map fun h => h.src.word
  | 0x19 => s.ip.map fun h => h.dst.word
  | 0x1A => s.ip.map fun h => h.endWord
  | _ => some 0#32

/-- The host samples the read port: `rd_data` shows the word, and nothing else changes (R33); a read of a group without
a value is the fault U1 asks for. DEDUCED, notes/assumptions/4.md. -/
def sampleRegister (addr : BitVec 6) (s : State) : Result :=
  match s.readRegister addr with
  | some w => .next (s.setRdData w)
  | none => .fault .unspecifiedRegister

end Sys2Proof.Machine
end

