-- ==== Sys2Proof/Machine/Port.lean ====
section
/-! DEFINITION. What the block does with what the host drives on its ports: an operation is decoded and run, an illegal
command word is refused (R92, R96), the read port is sampled (R33), `rst` is applied (R260). -/

namespace Sys2Proof.Machine

/-- The operation on a port: the decoded instruction runs; an illegal word is refused with code 6 (R96, R239). -/
def performPort (p : PortWord) (s : State) : Result :=
  match decodePort p with
  | .ok i => exec i s
  | .error _ => .next (s.raise .illegalCommand .refusal)

/-- One input of the host. -/
def performInput (x : HostInput) (s : State) : Result :=
  match x with
  | .issue p => performPort p s
  | .readRegister addr => sampleRegister addr s
  | .assertRst => .next s.applyRst

/-- An idle block with nothing driven on its ports waits (R255). -/
def waitIdle (s : State) : Result := .next s

/-- The inputs of the host after it presents an operation ahead of what it was about to do. -/
def presentFirst (p : PortWord) (s : State) : State := s.setInbox (.issue p :: s.inbox)

end Sys2Proof.Machine
end

