-- ==== Sys2Proof/Machine/Step.lean ====
section
/-! DEFINITION. One step of the machine: it takes the next thing the host does at the ports and carries it through to the
next command boundary (R6, R41, R70). -/

namespace Sys2Proof.Machine

/-- One step. With nothing to take, the idle block waits (R255). -/
def step (s : State) : Host.Outcome State Fault Refusal :=
  match s.inbox with
  | [] => waitIdle s
  | x :: rest => performInput x (s.setInbox rest)

/-- The state with an operation, given as the bits of a row of spec/opcode_table.json, as the next thing the host puts
on the ports. -/
def State.withFetchWord (s : State) (nbits w : Nat) : State := presentFirst (portWordOfBits nbits w) s

end Sys2Proof.Machine
end

