-- ==== Sys2Proof/Safety.lean ====
section
/-! DEFINITION. What the states a run reaches have in common (`State.Inv`), and the terms claims are stated in: what the
bytes of a buffer range are, what header a run of bytes is, why and where the splitter stops, and how a dump is read
back. None of it is used by the machine. -/

namespace Sys2Proof.Machine

/-! ### What a header register group satisfies -/

/-- The tag of an E group is that of its EtherType (R81). -/
def EthHeader.Consistent (h : EthHeader) : Prop := h.cls = classifyEther h.et0 h.et1

/-- The identities of R32 that do not mention the buffer, for a setting of `TOS_MAP`, and the tag of R86. -/
def IpFields.Consistent (m : Config.TosMap) (h : IpFields) : Prop :=
  h.hlen.toNat = 4 * h.ihl.toNat
  ∧ 20 ≤ h.hlen.toNat
  ∧ h.hlen.toNat ≤ h.tlen.toNat
  ∧ h.epsize.toNat = h.tlen.toNat + 14
  ∧ (h.opt = true ↔ 5 < h.ihl.toNat)
  ∧ h.tos.toNat = 128 * (h.trsv.toNat / 2) + 2 ^ (4 + m.rsvBit) * (h.trsv.toNat % 2) + 2 ^ (4 + m.delayBit) * h.delay.toNat
      + 2 ^ (4 + m.thruBit) * h.thru.toNat + 2 * h.prec.toNat + h.reli.toNat
  ∧ h.pclass = classifyProto h.proto

/-- A beat of the descriptor stream has the range its total length gives, inside a buffer (R172), and consistent headers. The
bytes it was decoded from may be gone: the histories outlive a CLR (R212). -/
def Descriptor.Valid (d : Descriptor) : Prop :=
  d.fend.toNat = d.fstart.toNat + 14 + d.i.tlen.toNat ∧ d.fend.toNat ≤ 1024
  ∧ d.e.Consistent ∧ d.i.Consistent params.tosMap

/-- A code that may stand on the text stream (R110): a space, a byte that stands for itself, 33 to 126 (the dot and the hex
digits are among those), or a code of the row terminator. -/
def TextCode (p : Config.Params) (c : Byte) : Prop :=
  c = 0x20#8 ∨ (33 ≤ c.toNat ∧ c.toNat ≤ 126) ∨ c ∈ p.eol

/-! ### The bytes of a range, and the header a run of bytes is -/

/-- The buffer holds `b 0, b 1, …, b (n-1)` at `[a, a+n)`, below `LEN`. -/
def State.Holds (s : State) (a n : Nat) (b : Nat → Byte) : Prop :=
  a + n ≤ s.len.toNat ∧ ∀ i, i < n → Memory.read s.buf (a + i) = some (b i)

/-- The EthernetHeader that fourteen bytes are (R80, R81). -/
def EthHeaderOf (b : Nat → Byte) (e : EthHeader) : Prop :=
  e.dmac = ⟨b 0, b 1, b 2, b 3, b 4, b 5⟩ ∧ e.smac = ⟨b 6, b 7, b 8, b 9, b 10, b 11⟩
  ∧ e.et0 = b 12 ∧ e.et1 = b 13
  ∧ e.cls = (if b 12 = 0x08#8 ∧ b 13 = 0x00#8 then .ip else if b 12 = 0x00#8 ∧ b 13 = 0x00#8 then .arp else .unknown)

/-- `headerLengthBytes` of a run of header bytes (R83). -/
def hlenOf (b : Nat → Byte) : Nat := 4 * ((b 0).toNat % 16)

/-- `totalLength` of a run of header bytes (R82 step 3). -/
def tlenOf (b : Nat → Byte) : Nat := 256 * (b 2).toNat + (b 3).toNat

/-- The IPv4Header that twenty bytes at a buffer address are (R82 to R86), the type-of-service bits as R84 places them at
the default `TOS_MAP`. -/
def IpHeaderOf (b : Nat → Byte) (off : Nat) (h : IpHeader) : Prop :=
  h.ver.toNat = (b 0).toNat / 16 ∧ h.ihl.toNat = (b 0).toNat % 16 ∧ h.hlen.toNat = hlenOf b
  ∧ h.tos = b 1 ∧ h.trsv = (b 1).extractLsb' 6 2 ∧ h.delay = (b 1).getLsbD 5 ∧ h.thru = (b 1).getLsbD 4
  ∧ h.prec = (b 1).extractLsb' 1 3 ∧ h.reli = (b 1).getLsbD 0
  ∧ h.tlen.toNat = tlenOf b ∧ h.epsize.toNat = tlenOf b + 14
  ∧ h.ident.toNat = 256 * (b 4).toNat + (b 5).toNat
  ∧ h.frsv = (b 6).getLsbD 7 ∧ h.df = (b 6).getLsbD 6 ∧ h.mf = (b 6).getLsbD 5
  ∧ h.foff.toNat = 256 * ((b 6).toNat % 32) + (b 7).toNat
  ∧ h.ttl = b 8 ∧ h.proto = b 9
  ∧ h.pclass = (if (b 9).toNat = 6 then .tcp else if (b 9).toNat = 17 then .udp else .unknown)
  ∧ h.csum0 = b 10 ∧ h.csum1 = b 11
  ∧ h.src = ⟨b 12, b 13, b 14, b 15⟩ ∧ h.dst = ⟨b 16, b 17, b 18, b 19⟩
  ∧ h.opt = decide (20 < hlenOf b)
  ∧ h.hend.toNat = off + hlenOf b ∧ h.pend.toNat = off + tlenOf b

/-- The E group is the header of fourteen bytes the buffer holds (R29, R132). -/
def State.ShowsEth (s : State) (e : EthHeader) : Prop := ∃ off b, s.Holds off 14 b ∧ EthHeaderOf b e

/-- The I group is the header of twenty bytes the buffer holds, its two cursor positions are those of their address (R31,
R151), and the two bytes at `off + 6` are the number the last identity of R32 gives. -/
def State.ShowsIp (s : State) (h : IpHeader) : Prop :=
  ∃ off b, s.Holds off 20 b ∧ IpHeaderOf b off h
    ∧ 256 * (b 6).toNat + (b 7).toNat
      = 32768 * h.frsv.toNat + 16384 * h.df.toNat + 8192 * h.mf.toNat + h.foff.toNat

/-! ### Frames and stops -/

/-- The IPv4 bytes of a run of frame bytes: those after the fourteen Ethernet bytes (R87). -/
def ipPart (b : Nat → Byte) : Nat → Byte := fun i => b (14 + i)

/-- The thirty-four bytes `b` begin a frame at `a` that lies inside the buffer (R170, R172): the header length is at least
20, the total length at least that, and the frame end at most `LEN`. -/
def State.FrameBytes (s : State) (a : Nat) (b : Nat → Byte) : Prop :=
  s.Holds a 34 b ∧ 20 ≤ hlenOf (ipPart b) ∧ hlenOf (ipPart b) ≤ tlenOf (ipPart b)
  ∧ a + 14 + tlenOf (ipPart b) ≤ s.len.toNat

/-- The descriptor is that of the frame at its own start in the buffer (R45, R176). -/
def State.FrameOf (s : State) (d : Descriptor) : Prop :=
  ∃ b e h, s.FrameBytes d.fstart.toNat b ∧ EthHeaderOf b e ∧ IpHeaderOf (ipPart b) (d.fstart.toNat + 14) h
    ∧ d.fend.toNat = d.fstart.toNat + 14 + tlenOf (ipPart b) ∧ d.e = e ∧ d.i = h.toIpFields

/-- The descriptors are the frames of the buffer from `a` to `z`, each starting where the one before it ends (R87, R176). -/
def State.FrameChain (s : State) : Nat → List Descriptor → Nat → Prop
  | a, [], z => a = z
  | a, d :: ds, z => d.fstart.toNat = a ∧ s.FrameOf d ∧ State.FrameChain s d.fend.toNat ds z

/-- Why an unstopped splitter with its cursor at `a` stops there, in the priority of R243 (R173, R152, R153, R175). -/
def State.StopsAt (s : State) (a : Nat) (r : StopReason) : Prop :=
  (s.len.toNat < a + 34 ∧ r = if a = s.len.toNat ∧ a ≠ 0 then .endOfBuffer else .trailingDataTooShort)
  ∨ ∃ b, s.Holds a 34 b
    ∧ ((hlenOf (ipPart b) < 20 ∧ r = .invalidHeaderLength)
      ∨ (20 ≤ hlenOf (ipPart b) ∧ tlenOf (ipPart b) < hlenOf (ipPart b) ∧ r = .invalidTotalLength)
      ∨ (20 ≤ hlenOf (ipPart b) ∧ hlenOf (ipPart b) ≤ tlenOf (ipPart b) ∧ s.len.toNat < a + 14 + tlenOf (ipPart b)
          ∧ r = .incompleteFrame))

/-! ### The invariant -/

/-- What holds at every command boundary a run reaches. -/
structure State.Inv (s : State) : Prop where
  /-- The buffer is in canonical form (R21). -/
  canonical : Memory.wf s.buf = true
  /-- `LEN` is 0 to 1024 (R22). -/
  lenBound : s.len.toNat ≤ 1024
  /-- Every cell below `LEN` holds a byte (R21, R66). -/
  loaded : ∀ a, a < s.len.toNat → (Memory.read s.buf a).isSome = true
  /-- `CUR <= LEN` (R23). -/
  cursor : s.cur.toNat ≤ s.len.toNat
  /-- Every emitted frame moved the cursor by at least 34, so `FCNT <= 30` (R24, R172). -/
  count : 34 * s.fcnt.toNat ≤ s.cur.toNat
  /-- The cursor has moved exactly when a frame was emitted (R173). -/
  countZero : s.fcnt = 0#8 ↔ s.cur = 0#11
  /-- `FEND` is where the cursor stands (R25, R176). -/
  rangeEnd : s.fend = s.cur
  /-- The last emitted range is at least 34 bytes, or no frame has been emitted (R25, R172). -/
  range : (s.fcnt = 0#8 ∧ s.fstart = 0#11) ∨ s.fstart.toNat + 34 ≤ s.fend.toNat
  /-- Until a command reads the buffer nothing is decoded and the splitter has not begun (R28, R36). -/
  unsealed : s.sealed = false → s.cur = 0#11 ∧ s.stopReason = none ∧ s.eth = none ∧ s.ip = none
  /-- Each of the five stops is true of the buffer at the cursor, for as long as the splitter is stopped (R152, R153, R173,
  R175, R282). -/
  stopTrue : ∀ r, s.stopReason = some r → s.StopsAt s.cur.toNat r
  /-- A valid E group is a header the buffer still holds (R29). -/
  ethOk : ∀ h, s.eth = some h → h.Consistent ∧ s.ShowsEth h
  /-- A valid I group is a header the buffer still holds (R31, R32). -/
  ipOk : ∀ h, s.ip = some h → h.toIpFields.Consistent params.tosMap ∧ s.ShowsIp h
  /-- Every emitted descriptor is a frame (R45, R172). -/
  descOk : ∀ d, Beat.desc d ∈ s.out → d.Valid
  /-- Every emitted code is one of R110. -/
  textOk : ∀ c, Beat.char c ∈ s.out → TextCode params c

/-- The operation ends in a next state: no fault, no refusal. -/
def Completes (o : Result) : Prop := ∃ t, o = .next t

/-- What RUN appends for one frame: its descriptor, then every code of its dump (R48). -/
def State.frameBeats (s : State) (d : Descriptor) : List Beat :=
  .desc d :: (hexDump params (s.bytes d.fstart.toNat d.fend.toNat)).map .char

/-- Two states that differ at most in buffer cells no rule can read (R66, U2). -/
def SameBelowLen (s t : State) : Prop :=
  t = { s with buf := t.buf } ∧ ∀ a, a < s.len.toNat → Memory.read s.buf a = Memory.read t.buf a

/-- Two outcomes that differ at most in buffer cells no rule can read. -/
def SameOutcome (o p : Result) : Prop :=
  (∃ s t, o = .next s ∧ p = .next t ∧ SameBelowLen s t) ∨ ∃ f, o = .fault f ∧ p = .fault f

/-! ### Sequences of inputs -/

/-- What the block does with inputs of the host, one after another. -/
def performAll : List HostInput → State → Result
  | [], s => .next s
  | x :: xs, s => andThen (performInput x s) (performAll xs)

/-- The input does not end the decode pass: it is neither a CLR nor an edge with `rst` 1 (R212, R260). -/
def HostInput.StaysInPass (x : HostInput) : Prop := x ≠ .assertRst ∧ ∀ p, x = .issue p → decodePort p ≠ .ok .clr

/-! ### Reading a dump back -/

/-- The value of a lowercase hex digit character; 0 for any other code. -/
def hexVal (c : Byte) : Nat :=
  if 0x30 ≤ c.toNat ∧ c.toNat ≤ 0x39 then c.toNat - 0x30
  else if 0x61 ≤ c.toNat ∧ c.toNat ≤ 0x66 then c.toNat - 0x61 + 10
  else 0

/-- The bytes a row shows, by its columns (R199): `k` is the row's length less `52 + HD_GAP`, and byte `j` stands at
columns `5 + 3j` and `6 + 3j`. -/
def parseRow (gap : Nat) (row : List Byte) : List Byte :=
  (List.range (row.length - (52 + gap))).map fun j =>
    BitVec.ofNat 8 (16 * hexVal (row.getD (5 + 3 * j) 0#8) + hexVal (row.getD (6 + 3 * j) 0#8))

/-- The rows of a text, each ended by the line terminator (D31). -/
def textRows (eol : Byte) : List Byte → List Byte → List (List Byte)
  | _, [] => []
  | acc, c :: cs => if c = eol then acc.reverse :: textRows eol [] cs else textRows eol (c :: acc) cs

/-- The bytes a whole dump shows (R199). -/
def parseDump (gap : Nat) (eol : Byte) (text : List Byte) : List Byte :=
  (textRows eol [] text).flatMap (parseRow gap)

end Sys2Proof.Machine
end

