-- ==== Sys2Proof/Certificates/Slice0/Obligations.lean ====
section
/-! DEFINITION. The statements for the provers. Each docstring names the rules of spec/ it comes from; a clause that rests
on a choice of the model names the row of notes/assumptions/ that makes it. -/

open Sys2Proof Sys2Proof.Machine

/-! ### The bit-field extractor -/

/-- R121: HEXDIGIT puts the nibble at a position on `bfx_out` and changes nothing else; it has no condition; a position past
the 32 bits reads 0; `bfx_sel` 0 selects it. -/
def Obligations.HexdigitReadsNibble : Prop :=
  (∀ (value pos : Nat) (s : State), ∃ r : BitVec 4,
    exec (.hexdigit value pos) s = .next { s with bfxOut := r }
    ∧ r.toNat = hexDigit value pos ∧ hexDigit value pos = value / 16 ^ pos % 16
    ∧ (value < 2 ^ 32 → 8 ≤ pos → r = 0#4)
    ∧ (value = 0 → r = 0#4))
  ∧ (∀ (p : Byte) (v : Word), decodePort (.bitField false p v) = .ok (.hexdigit v.toNat p.toNat))
  ∧ hexDigit 0x45 1 = 4 ∧ hexDigit 0x45 0 = 5

/-- R122: BINDIGIT puts the bit at a position on `bfx_out[0]`, the upper three bits 0, and changes nothing else; a position
past the 32 bits reads 0; position 31 is the top bit; `bfx_sel` 1 selects it. -/
def Obligations.BindigitReadsBit : Prop :=
  (∀ (value pos : Nat) (s : State), ∃ r : BitVec 4,
    exec (.bindigit value pos) s = .next { s with bfxOut := r }
    ∧ r.toNat = binaryDigit value pos ∧ binaryDigit value pos = value / 2 ^ pos % 2
    ∧ r.extractLsb' 1 3 = 0#3
    ∧ (value < 2 ^ 32 → 32 ≤ pos → r = 0#4)
    ∧ (value < 2 ^ 32 → pos = 31 → (r = 1#4 ↔ 2 ^ 31 ≤ value)))
  ∧ (∀ (p : Byte) (v : Word), decodePort (.bitField true p v) = .ok (.bindigit v.toNat p.toNat))
  ∧ binaryDigit 0x40 6 = 1 ∧ binaryDigit 0x40 5 = 0

/-- R123: a number is the sum of its nibbles, a nibble the sum of its bits, a nibble its own low nibble, and a byte is its
two nibbles with nothing above them. -/
def Obligations.BitFieldLaws : Prop :=
  (∀ v n : Nat, v < 16 ^ n → v = ∑ p ∈ Finset.range n, hexDigit v p * 16 ^ p)
  ∧ (∀ v p : Nat, hexDigit v p = ∑ k ∈ Finset.range 4, binaryDigit v (4 * p + k) * 2 ^ k)
  ∧ (∀ v p : Nat, hexDigit (hexDigit v p) 0 = hexDigit v p)
  ∧ (∀ b : Nat, b < 256 → b = 16 * hexDigit b 1 + hexDigit b 0 ∧ ∀ p, 2 ≤ p → hexDigit b p = 0)

/-! ### NOP, CLR, PUSH -/

/-- R211: NOP changes nothing, `STATUS.code` included, and raises nothing; only the word 0 is a NOP, and another word with
`op` 0 is an illegal word. -/
def Obligations.NopKeepsEverything : Prop :=
  (∀ s : State, exec .nop s = .next s) ∧ (∀ w : Word, decodeCommand w = .ok .nop ↔ w = 0#32)
  ∧ (∀ w : Word, wordOp w = 0#4 → w ≠ 0#32 → ∃ e, decodeCommand w = .error e)

/-- R51: CLR completes from every state; every register is then as after reset, and only the histories (with `BUF`, which
R212 says is not erased, and the model's own records of the ports) are left as they are. -/
def Obligations.ClrGivesResetRegisters : Prop :=
  ∀ s : State, ∃ t : State, exec .clr s = .next t
    ∧ t = { State.reset with buf := s.buf, out := s.out, bfxOut := s.bfxOut, rdData := s.rdData, inbox := s.inbox }
    ∧ t.descHistory = s.descHistory ∧ t.txtHistory = s.txtHistory ∧ t.statusWord = 0#32 ∧ exec .clr t = .next t

/-- R213: PUSH is refused with code 6 while sealed, else with code 7 when `LEN` is 1024, and otherwise stores the byte at
`BUF[LEN]`, adds 1 to `LEN` and reports code 0; its word is `0x20000000 + d`; after an ETH, IP4, NEXT or RUN, whatever it
reported, and after a DUMP that reported 0, a PUSH is refused, then and after any further inputs of the host among which
there is no CLR and no `rst`. -/
def Obligations.PushAppendsOrIsRefused : Prop :=
  (∀ (s : State) (d : Nat), s.sealed = true → exec (.push d) s = .next { s with code := .illegalCommand })
  ∧ (∀ (s : State) (d : Nat), s.sealed = false → s.len.toNat = 1024 →
      exec (.push d) s = .next { s with code := .bufferFull })
  ∧ (∀ (s : State) (d : Nat), s.sealed = false → s.len.toNat < 1024 → ∃ m : Memory,
      exec (.push d) s = .next { s with buf := m, len := s.len + 1#11, code := .ok }
      ∧ (s.len + 1#11).toNat = s.len.toNat + 1
      ∧ (∀ a, Memory.read m a = if a = s.len.toNat then some (BitVec.ofNat 8 d) else Memory.read s.buf a)
      ∧ (Memory.wf s.buf = true → Memory.wf m = true))
  ∧ (∀ (w : Word) (d : Nat), decodeCommand w = .ok (.push d) ↔ d < 256 ∧ w = BitVec.ofNat 32 (0x20000000 + d))
  ∧ (∀ (i : Instr) (s t u : State) (xs : List HostInput) (d : Nat), s.Inv → exec i s = .next t →
      i = .next ∨ i = .run ∨ (∃ a, i = .eth a) ∨ (∃ a, i = .ip4 a) ∨ (t.code = .ok ∧ ∃ a z, i = .dump a z) →
      (∀ x ∈ xs, x.StaysInPass) → performAll xs t = .next u →
      exec (.push d) u = .next { u with code := .illegalCommand })

/-! ### The Ethernet decoder -/

/-- R81: the pair (08, 00) is IP, (00, 00) is ARP, each other pair UNKNOWN, (08, 06) among them. -/
def Obligations.EtherTypeClasses : Prop :=
  classifyEther 0x08#8 0x00#8 = .ip ∧ classifyEther 0x00#8 0x00#8 = .arp ∧ classifyEther 0x08#8 0x06#8 = .unknown
  ∧ ∀ x y : Byte, ¬(x = 0x08#8 ∧ y = 0x00#8) → ¬(x = 0x00#8 ∧ y = 0x00#8) → classifyEther x y = .unknown

/-- R130, R131: with fourteen bytes from `off`, ETH stores the header they are, seals and reports 0; with fewer, at any
offset, it reports TruncatedHeader, seals, and leaves the E group without a value; nothing else changes, stopped or not. -/
def Obligations.EthDecodesOrTruncates : Prop :=
  (∀ (s : State) (off : Nat) (b : Nat → Byte), s.Holds off 14 b → ∃ e, EthHeaderOf b e
    ∧ exec (.eth off) s = .next { s with sealed := true, eth := some e, code := .ok })
  ∧ (∀ (s : State) (off : Nat), (s.len.toNat : Int) - off < 14 →
    exec (.eth off) s = .next { s with sealed := true, eth := none, code := .truncatedHeader })
  ∧ (∀ off : Nat, off < 2048 → decodeCommand (BitVec.ofNat 32 (0x30000000 + 2048 * off)) = .ok (.eth off))

/-! ### The IPv4 decoder -/

/-- R86: protocol 6 is TCP, 17 is UDP, each other value UNKNOWN. -/
def Obligations.ProtocolClasses : Prop :=
  classifyProto 6#8 = .tcp ∧ classifyProto 17#8 = .udp
  ∧ ∀ p : Byte, p ≠ 6#8 → p ≠ 17#8 → classifyProto p = .unknown

/-- R144, R84: precedence is byte bits 3:1 and reliability bit 0 whatever TOS_MAP is; the three open bits follow TOS_MAP;
reserved bit 1 is byte bit 7. A TOS_MAP places the three on the bits 0, 1, 2 of the high nibble, and no two maps place them
alike. The setting the machine uses, "respective", is the spec's default (notes/assumptions/3.md). -/
def Obligations.TosByteFields : Prop :=
  (∀ (m : Config.TosMap) (t : Byte),
    (decodeTos m t).prec.toNat = t.toNat / 2 % 8 ∧ (decodeTos m t).reli = t.getLsbD 0
    ∧ (decodeTos m t).thru = t.getLsbD (4 + m.thruBit) ∧ (decodeTos m t).delay = t.getLsbD (4 + m.delayBit)
    ∧ (decodeTos m t).trsv.getLsbD 0 = t.getLsbD (4 + m.rsvBit) ∧ (decodeTos m t).trsv.getLsbD 1 = t.getLsbD 7)
  ∧ (∀ m : Config.TosMap, [m.thruBit, m.delayBit, m.rsvBit].Perm [0, 1, 2])
  ∧ (∀ m n : Config.TosMap, m.thruBit = n.thruBit → m.delayBit = n.delayBit → m = n)
  ∧ (∀ t : Byte, (decodeTos params.tosMap t).thru = t.getLsbD 4 ∧ (decodeTos params.tosMap t).delay = t.getLsbD 5
    ∧ (decodeTos params.tosMap t).trsv = t.extractLsb' 6 2)

/-- R85: with `w = 256*byte6 + byte7`, the reserved flag is bit 15, don't-fragment bit 14, more-fragments bit 13 and the
fragment offset bits 12:0. -/
def Obligations.FragmentWordFields : Prop :=
  ∀ f0 f1 : Byte,
    (decodeFrag f0 f1).frsv = (f0 ++ f1 : BitVec 16).getLsbD 15 ∧ (decodeFrag f0 f1).df = (f0 ++ f1 : BitVec 16).getLsbD 14
    ∧ (decodeFrag f0 f1).mf = (f0 ++ f1 : BitVec 16).getLsbD 13
    ∧ (decodeFrag f0 f1).foff = (f0 ++ f1 : BitVec 16).extractLsb' 0 13
    ∧ (f0 ++ f1 : BitVec 16).toNat = 256 * f0.toNat + f1.toNat

/-- R140 with R142 to R151, its success: with twenty bytes from `off` that declare a header length of at least 20 and a
total length of at least that, IP4 stores the header they are, seals and reports 0; nothing else changes. The bits of the
type-of-service byte are read at the default TOS_MAP (notes/assumptions/3.md). -/
def Obligations.Ip4DecodesHeader : Prop :=
  (∀ (s : State) (off : Nat) (b : Nat → Byte), s.Holds off 20 b → 20 ≤ hlenOf b → hlenOf b ≤ tlenOf b →
    ∃ h, IpHeaderOf b off h ∧ exec (.ip4 off) s = .next { s with sealed := true, ip := some h, code := .ok })
  ∧ (∀ off : Nat, off < 2048 → decodeCommand (BitVec.ofNat 32 (0x40000000 + 2048 * off)) = .ok (.ip4 off))

/-- R154 with R141, R152, R153: IP4 reports TruncatedHeader, else InvalidHeaderLength, else InvalidTotalLength, the first
that applies; it then leaves the I group without a value and seals, and changes nothing else. -/
def Obligations.Ip4ConditionsInPriority : Prop :=
  (∀ (s : State) (off : Nat), (s.len.toNat : Int) - off < 20 →
    exec (.ip4 off) s = .next { s with sealed := true, ip := none, code := .truncatedHeader })
  ∧ (∀ (s : State) (off : Nat) (b : Nat → Byte), s.Holds off 20 b → hlenOf b < 20 →
    exec (.ip4 off) s = .next { s with sealed := true, ip := none, code := .invalidHeaderLength })
  ∧ (∀ (s : State) (off : Nat) (b : Nat → Byte), s.Holds off 20 b → 20 ≤ hlenOf b → tlenOf b < hlenOf b →
    exec (.ip4 off) s = .next { s with sealed := true, ip := none, code := .invalidTotalLength })

/-! ### The splitter -/

/-- R170, R176, its success: where a frame that lies inside the buffer begins at the cursor of an unstopped splitter, NEXT
emits its descriptor, stores both headers and the range, counts it, moves the cursor to its end and reports 0, whatever
the EtherType class or the version is (R174); nothing else changes. The type-of-service bits are read at the model's setting
of TOS_MAP (notes/assumptions/3.md), and that the command completes rests on a consumer that accepts the beat (R281;
notes/assumptions/8.md). -/
def Obligations.NextEmitsFrame : Prop :=
  ∀ (s : State) (b : Nat → Byte), s.stopReason = none → s.FrameBytes s.cur.toNat b →
    ∃ e h d, EthHeaderOf b e ∧ IpHeaderOf (ipPart b) (s.cur.toNat + 14) h
      ∧ d.fstart = s.cur ∧ d.fend.toNat = s.cur.toNat + 14 + tlenOf (ipPart b) ∧ d.e = e ∧ d.i = h.toIpFields
      ∧ exec .next s = .next
          { s with
            sealed := true, code := .ok, eth := some e, ip := some h, fstart := s.cur, fend := d.fend, cur := d.fend
            fcnt := s.fcnt + 1#8, out := s.out ++ [.desc d] }

/-- R238 with R173, R175 and the priority of R243: where an unstopped splitter finds too few bytes, a header or total
length that is illegal, or a frame past `LEN`, NEXT records the stop, seals, leaves both groups without a value and changes
nothing else. -/
def Obligations.NextStopsWithReason : Prop :=
  ∀ (s : State) (r : StopReason), s.stopReason = none → s.StopsAt s.cur.toNat r →
    exec .next s = .next { s with code := r.code, stopReason := some r, sealed := true, eth := none, ip := none }

/-- R171: while the splitter is stopped, NEXT and RUN change no state but `STATUS.code <- STATUS.stopcode`. -/
def Obligations.StoppedSplitterOnlyReports : Prop :=
  ∀ (s : State) (r : StopReason), s.stopReason = some r →
    exec .next s = .next { s with code := r.code } ∧ exec .run s = .next { s with code := r.code }
    ∧ r.code.bits = s.stopcode

/-- R235: a buffer shorter than 34 bytes, the empty one among them, yields no frame and no text and is reported as
TrailingDataTooShort, by NEXT and by RUN; so is a remainder of 1 to 33 bytes after the cursor; the command completes. -/
def Obligations.ShortBufferYieldsNoFrame : Prop :=
  ∀ s : State, s.stopReason = none →
    (s.cur = 0#11 ∧ s.len.toNat < 34) ∨ (s.cur.toNat < s.len.toNat ∧ s.len.toNat < s.cur.toNat + 34) →
    exec .run s = exec .next s
    ∧ exec .run s = .next
        { s with code := .trailingDataTooShort, stopReason := some .trailingDataTooShort, sealed := true, eth := none, ip := none }

/-- R172: after a NEXT that reports 0 the frame end is the frame start plus 14 plus the total length, without wrapping, and
the source's invariants hold; the cursor has moved by at least 34. -/
def Obligations.EmittedFrameRange : Prop :=
  ∀ s t : State, exec .next s = .next t → t.code = .ok →
    ∃ h, t.ip = some h ∧ t.fstart = s.cur ∧ t.cur = t.fend
      ∧ t.fend.toNat = s.cur.toNat + 14 + h.tlen.toNat
      ∧ 20 ≤ h.hlen.toNat ∧ h.hlen.toNat ≤ h.tlen.toNat ∧ t.fend.toNat ≤ t.len.toNat
      ∧ s.cur.toNat + 34 ≤ t.cur.toNat

/-- R180, R181: a RUN is a NEXT and, when that reports 0, a DUMP of the range it left and then a RUN again; the bound on the
model's loop is never felt. -/
def Obligations.RunIsNextThenDump : Prop :=
  ∀ s : State, s.Inv →
    exec .run s = andThen (exec .next s) fun t =>
      if t.code = .ok then andThen (exec (.dump t.fstart.toNat t.fend.toNat) t) (exec .run) else .next t

/-- R180, R176, R48 and R282 together: a RUN of an unstopped splitter completes; the frames it emits are those of the buffer
from the cursor on, each starting where the one before it ends; for each it appends the descriptor and then its dump, in
that order and nothing between; it stops where no further frame can be taken, for the reason R243 gives, and leaves no
header. The type-of-service bits and the text are at the model's setting of the parameters (notes/assumptions/3.md). That
RUN completes is the model's choice of consumers that accept every beat (notes/assumptions/8.md); R281 makes it a proviso. -/
def Obligations.RunWalksTheBuffer : Prop :=
  ∀ s : State, s.Inv → s.stopReason = none →
    ∃ t ds r, exec .run s = .next t
      ∧ s.FrameChain s.cur.toNat ds t.cur.toNat
      ∧ s.StopsAt t.cur.toNat r
      ∧ t.fcnt.toNat = s.fcnt.toNat + ds.length
      ∧ (ds = [] → t.fstart = s.fstart ∧ t.fend = s.fend)
      ∧ (∀ d, ds.getLast? = some d → t.fstart = d.fstart ∧ t.fend = d.fend)
      ∧ t = { s with
              cur := t.cur, fcnt := t.fcnt, fstart := t.fstart, fend := t.fend
              code := r.code, stopReason := some r, sealed := true, eth := none, ip := none
              out := s.out ++ ds.flatMap s.frameBeats }

/-- R281, R172: thirty-one iterations are enough for every RUN; more change nothing. That RUN completes is the model's choice
of consumers that accept every beat (notes/assumptions/8.md); R281 makes it a proviso. -/
def Obligations.RunNeedsNoMoreIterations : Prop :=
  ∀ (s : State) (n : Nat), s.Inv → 31 ≤ n → runLoop params n s = exec .run s ∧ Completes (exec .run s)

/-! ### The hex dump -/

/-- R190, R191: over a legal range DUMP appends the text of its bytes, seals and reports 0, the empty range appending
nothing (R197); an illegal range is refused with code 6; nothing else changes. The text is at the model's setting of the
parameters, which the last clause gives: a gap of one space and the row terminator 0x0A, the spec's stated defaults
(notes/assumptions/3.md). That the command completes rests on a consumer that accepts the beats (R281;
notes/assumptions/8.md). -/
def Obligations.DumpRendersRange : Prop :=
  (∀ (s : State) (first last : Nat) (b : Nat → Byte), first ≤ last → s.Holds first (last - first) b →
    exec (.dump first last) s = .next
      { s with sealed := true, code := .ok, out := s.out ++ (hexDump params ((List.range (last - first)).map b)).map .char })
  ∧ (∀ (s : State) (first last : Nat), ¬(first ≤ last ∧ last ≤ s.len.toNat) →
    exec (.dump first last) s = .next { s with code := .illegalCommand })
  ∧ (∀ (s : State) (first : Nat), first ≤ s.len.toNat →
    exec (.dump first first) s = .next { s with sealed := true, code := .ok })
  ∧ (∀ first last : Nat, first < 2048 → last < 2048 →
    decodeCommand (BitVec.ofNat 32 (0x70000000 + 2048 * first + last)) = .ok (.dump first last))
  ∧ (params.hdGap = 1 ∧ params.eol = [0x0A#8])

/-- R193, R195, R196, for every setting of the parameters: the columns of row `r` of a dump, whose first character stands
after `r` full rows. -/
def Obligations.HexDumpColumns : Prop :=
  ∀ (p : Config.Params) (b : List Byte) (r k base : Nat), 16 * r < b.length → k = min 16 (b.length - 16 * r) →
    base = r * (68 + p.hdGap + p.eol.length) →
    (∀ i, i < 4 → (hexDump p b)[base + i]? = some (hexChar (hexDigit (16 * r) (3 - i))))
    ∧ (hexDump p b)[base + 4]? = some 0x20#8
    ∧ (∀ j x, j < k → b[16 * r + j]? = some x →
        (hexDump p b)[base + 5 + 3 * j]? = some (hexChar (x.toNat / 16))
        ∧ (hexDump p b)[base + 6 + 3 * j]? = some (hexChar (x.toNat % 16))
        ∧ (hexDump p b)[base + 52 + p.hdGap + j]? = some (asciiOf x))
    ∧ (∀ j, k ≤ j → j < 16 →
        (hexDump p b)[base + 5 + 3 * j]? = some 0x20#8 ∧ (hexDump p b)[base + 6 + 3 * j]? = some 0x20#8)
    ∧ (∀ j, j < 15 → (hexDump p b)[base + 7 + 3 * j]? = some 0x20#8)
    ∧ (∀ g, g < p.hdGap → (hexDump p b)[base + 52 + g]? = some 0x20#8)
    ∧ (∀ i, i < p.eol.length → (hexDump p b)[base + 52 + p.hdGap + k + i]? = p.eol[i]?)

/-- R200: the size of a dump and the number of its row terminators, for the default `EOL`, every gap and every TOS_MAP. -/
def Obligations.HexDumpSize : Prop :=
  ∀ (m : Config.TosMap) (gap : Nat) (b : List Byte),
    (hexDump ⟨m, gap, [0x0A#8]⟩ b).length = (b.length + 15) / 16 * (53 + gap) + b.length
    ∧ (hexDump ⟨m, gap, [0x0A#8]⟩ b).count 0x0A#8 = (b.length + 15) / 16

/-- R199: reading the hex columns of a dump back gives the bytes dumped, for every length, every byte and every gap. -/
def Obligations.HexDumpRoundTrip : Prop :=
  ∀ (m : Config.TosMap) (gap : Nat) (b : List Byte), parseDump gap 0x0A#8 (hexDump ⟨m, gap, [0x0A#8]⟩ b) = b

/-- R111: the codes of the hex digits, and the order of the digits in `hex2` and `hex4`. -/
def Obligations.HexCharacterCodes : Prop :=
  (∀ n : Nat, n ≤ 9 → (hexChar n).toNat = 0x30 + n)
  ∧ (∀ n : Nat, 10 ≤ n → n ≤ 15 → (hexChar n).toNat = 0x61 + (n - 10))
  ∧ (∀ v : Nat, hex2 v = [hexChar (v / 16 % 16), hexChar (v % 16)])
  ∧ (∀ v : Nat, hex4 v = [hexChar (v / 4096 % 16), hexChar (v / 256 % 16), hexChar (v / 16 % 16), hexChar (v % 16)])

/-- R194: a byte from 33 to 126 is rendered as itself, every other byte as a dot. -/
def Obligations.AsciiColumnRendering : Prop :=
  ∀ v : Byte, (33 ≤ v.toNat → v.toNat ≤ 126 → asciiOf v = v) ∧ (v.toNat < 33 ∨ 126 < v.toNat → asciiOf v = 0x2E#8)

/-! ### STATUS and the read port -/

/-- R26: the fields of the `STATUS` word, `stopcode` being nonzero exactly while the splitter is stopped. -/
def Obligations.StatusWordFields : Prop :=
  ∀ s : State,
    s.statusWord.extractLsb' 0 4 = s.code.bits ∧ s.statusWord.extractLsb' 4 4 = s.stopcode
    ∧ s.statusWord.getLsbD 8 = s.stopReason.isSome ∧ s.statusWord.getLsbD 9 = s.sealed
    ∧ s.statusWord.getLsbD 10 = s.eth.isSome ∧ s.statusWord.getLsbD 11 = s.ip.isSome
    ∧ s.statusWord.extractLsb' 12 20 = 0#20 ∧ (s.stopcode = 0#4 ↔ s.stopReason = none)

/-- R231, R43: the numbers of the condition codes, the code each of the five stops is reported with (R152, R153, R173, R175,
R238), and the level of `err`. -/
def Obligations.ConditionCodesAndErr : Prop :=
  Code.ok.bits = 0#4 ∧ Code.truncatedHeader.bits = 1#4 ∧ Code.invalidHeaderLength.bits = 2#4 ∧ Code.incompleteFrame.bits = 3#4
  ∧ Code.trailingDataTooShort.bits = 4#4 ∧ Code.invalidTotalLength.bits = 5#4 ∧ Code.illegalCommand.bits = 6#4
  ∧ Code.bufferFull.bits = 7#4 ∧ Code.endOfBuffer.bits = 8#4
  ∧ StopReason.invalidHeaderLength.code = .invalidHeaderLength ∧ StopReason.incompleteFrame.code = .incompleteFrame
  ∧ StopReason.trailingDataTooShort.code = .trailingDataTooShort ∧ StopReason.invalidTotalLength.code = .invalidTotalLength
  ∧ StopReason.endOfBuffer.code = .endOfBuffer
  ∧ (∀ r : StopReason, r.code.bits.toNat ∈ [2, 3, 4, 5, 8])
  ∧ (∀ s : State, s.err = true ↔ 1 ≤ s.code.bits.toNat ∧ s.code.bits.toNat ≤ 7)

/-- R33 with the packing of R34: every register of the read port and every field of it: the control registers in every
state, the E registers wherever the E group holds a value, the I registers wherever the I group does; and the codes of the
two classification tags (R105). -/
def Obligations.ReadPortMap : Prop :=
  (∀ s : State,
    s.readRegister 0x00 = some s.statusWord
    ∧ s.readRegister 0x01 = some (0#21 ++ s.len)
    ∧ s.readRegister 0x02 = some (0#21 ++ s.cur)
    ∧ s.readRegister 0x03 = some (0#24 ++ s.fcnt)
    ∧ s.readRegister 0x04 = some (0#5 ++ s.fend ++ 0#5 ++ s.fstart))
  ∧ (∀ (s : State) (e : EthHeader), s.eth = some e →
    s.readRegister 0x08 = some (0#16 ++ e.dmac.o0 ++ e.dmac.o1)
    ∧ s.readRegister 0x09 = some (e.dmac.o2 ++ e.dmac.o3 ++ e.dmac.o4 ++ e.dmac.o5)
    ∧ s.readRegister 0x0A = some (0#16 ++ e.smac.o0 ++ e.smac.o1)
    ∧ s.readRegister 0x0B = some (e.smac.o2 ++ e.smac.o3 ++ e.smac.o4 ++ e.smac.o5)
    ∧ s.readRegister 0x0C = some (0#14 ++ e.cls.bits ++ e.et0 ++ e.et1))
  ∧ (∀ (s : State) (h : IpHeader), s.ip = some h →
    s.readRegister 0x10 = some (0#15 ++ BitVec.ofBool h.opt ++ 0#2 ++ h.hlen ++ h.ver ++ h.ihl)
    ∧ s.readRegister 0x11 = some (0#16 ++ h.trsv ++ BitVec.ofBool h.reli ++ BitVec.ofBool h.thru ++ BitVec.ofBool h.delay
        ++ h.prec ++ h.tos)
    ∧ s.readRegister 0x12 = some (0#16 ++ h.tlen)
    ∧ s.readRegister 0x13 = some (0#15 ++ h.epsize)
    ∧ s.readRegister 0x14 = some (0#16 ++ h.ident)
    ∧ s.readRegister 0x15 = some (0#16 ++ BitVec.ofBool h.frsv ++ BitVec.ofBool h.df ++ BitVec.ofBool h.mf ++ h.foff)
    ∧ s.readRegister 0x16 = some (0#14 ++ h.pclass.bits ++ h.proto ++ h.ttl)
    ∧ s.readRegister 0x17 = some (0#16 ++ h.csum0 ++ h.csum1)
    ∧ s.readRegister 0x18 = some (h.src.o0 ++ h.src.o1 ++ h.src.o2 ++ h.src.o3)
    ∧ s.readRegister 0x19 = some (h.dst.o0 ++ h.dst.o1 ++ h.dst.o2 ++ h.dst.o3)
    ∧ s.readRegister 0x1A = some (0#3 ++ h.hend ++ h.pend))
  ∧ (EtherClass.ip.bits = 0#2 ∧ EtherClass.arp.bits = 1#2 ∧ EtherClass.unknown.bits = 2#2
    ∧ ProtoClass.tcp.bits = 0#2 ∧ ProtoClass.udp.bits = 1#2 ∧ ProtoClass.unknown.bits = 2#2)

/-- R35: every address R33 does not list reads as zero, in every state. -/
def Obligations.UnlistedAddressesReadZero : Prop :=
  ∀ (s : State) (a : BitVec 6),
    (5 ≤ a.toNat ∧ a.toNat ≤ 7) ∨ (0x0D ≤ a.toNat ∧ a.toNat ≤ 0x0F) ∨ 0x1B ≤ a.toNat → s.readRegister a = some 0#32

/-- R272, R30, R33: a sample of the read port shows the word and changes nothing else, and a sample of an E or I register
whose group holds no value is a fault (U1; notes/assumptions/4.md), and no other sample is. -/
def Obligations.ReadPortSampling : Prop :=
  (∀ (s : State) (a : BitVec 6) (rest : List HostInput) (w : Word), s.inbox = .readRegister a :: rest →
    s.readRegister a = some w → step s = .next { s with inbox := rest, rdData := w })
  ∧ (∀ (s : State) (a : BitVec 6) (rest : List HostInput), s.inbox = .readRegister a :: rest →
      (s.eth = none ∧ 0x08 ≤ a.toNat ∧ a.toNat ≤ 0x0C) ∨ (s.ip = none ∧ 0x10 ≤ a.toNat ∧ a.toNat ≤ 0x1A) →
      step s = .fault .unspecifiedRegister)
  ∧ (∀ (s : State) (a : BitVec 6),
      ¬((s.eth = none ∧ 0x08 ≤ a.toNat ∧ a.toNat ≤ 0x0C) ∨ (s.ip = none ∧ 0x10 ≤ a.toNat ∧ a.toNat ≤ 0x1A)) →
      ∃ w, s.readRegister a = some w)

/-- R34: after an IP4 of bytes `b`, `I_FRAG[15:0]` is the two bytes at `off + 6`, the lower address more significant, and so
are `I_LEN`, `I_ID`, `I_CSUM` and the addresses; after an ETH, `E_TYPE[15:0]` is the two EtherType bytes, and the MAC
registers are likewise. -/
def Obligations.PackedRegistersShowBufferBytes : Prop :=
  (∀ (s t : State) (off : Nat) (b : Nat → Byte), s.Holds off 20 b → exec (.ip4 off) s = .next t → t.code = .ok →
    t.readRegister 0x12 = some (0#16 ++ b 2 ++ b 3) ∧ t.readRegister 0x14 = some (0#16 ++ b 4 ++ b 5)
    ∧ t.readRegister 0x15 = some (0#16 ++ b 6 ++ b 7) ∧ t.readRegister 0x17 = some (0#16 ++ b 10 ++ b 11)
    ∧ t.readRegister 0x18 = some (b 12 ++ b 13 ++ b 14 ++ b 15) ∧ t.readRegister 0x19 = some (b 16 ++ b 17 ++ b 18 ++ b 19))
  ∧ (∀ (s t : State) (off : Nat) (b : Nat → Byte), s.Holds off 14 b → exec (.eth off) s = .next t → t.code = .ok →
    ∃ w, t.readRegister 0x0C = some w ∧ w.extractLsb' 0 16 = (b 12 ++ b 13 : BitVec 16)
      ∧ t.readRegister 0x08 = some (0#16 ++ b 0 ++ b 1) ∧ t.readRegister 0x09 = some (b 2 ++ b 3 ++ b 4 ++ b 5)
      ∧ t.readRegister 0x0A = some (0#16 ++ b 6 ++ b 7) ∧ t.readRegister 0x0B = some (b 8 ++ b 9 ++ b 10 ++ b 11))

/-! ### Reset, the ports and one step -/

/-- R50: every control register zero, the two groups without a value, both histories empty, the engine idle, `err` 0. -/
def Obligations.ResetValues : Prop :=
  State.reset.len = 0#11 ∧ State.reset.cur = 0#11 ∧ State.reset.fcnt = 0#8 ∧ State.reset.fstart = 0#11 ∧ State.reset.fend = 0#11
  ∧ State.reset.statusWord = 0#32 ∧ State.reset.eth = none ∧ State.reset.ip = none
  ∧ State.reset.descHistory = [] ∧ State.reset.txtHistory = [] ∧ State.reset.idle = true ∧ State.reset.err = false

/-- R260, R262: an edge with `rst` 1 gives the reset state whatever came before, up to the contents of `BUF`, which R50 says
are not cleared and no rule can read, and the model's own records of the ports. -/
def Obligations.RstGivesResetState : Prop :=
  ∀ (s : State) (rest : List HostInput), s.inbox = .assertRst :: rest →
    step s = .next { State.reset with buf := s.buf, bfxOut := s.bfxOut, rdData := s.rdData, inbox := rest }

/-- A step runs the decoded instruction (R41, R92): what stands first at the ports is taken, and exec of the instruction it
decodes to, with the remaining inputs of the host, is the step; an input that decodes to none is refused. That the host's
inputs are the list `inbox` is the model's choice (notes/assumptions/1.md). -/
def Obligations.StepRunsDecodedInstruction : Prop :=
  (∀ (s : State) (p : PortWord) (rest : List HostInput) (i : Instr), s.inbox = .issue p :: rest → decodePort p = .ok i →
    step s = exec i { s with inbox := rest })
  ∧ (∀ (s : State) (p : PortWord) (rest : List HostInput) (e : Illegal), s.inbox = .issue p :: rest →
    decodePort p = .error e → step s = .next { s with inbox := rest, code := .illegalCommand })

/-- R96: a word with a reserved `op`, a nonzero `z` or a nonzero must-be-zero argument bit is refused with code 6 and changes
nothing else; no word but 0 is a NOP. -/
def Obligations.IllegalWordsAreRefused : Prop :=
  (∀ (s : State) (w : Word),
    8 ≤ (wordOp w).toNat ∨ wordZ w ≠ 0#6
      ∨ ((wordOp w).toNat ∈ [0, 1, 5, 6] ∧ (wordA w ≠ 0#11 ∨ wordB w ≠ 0#11))
      ∨ ((wordOp w).toNat = 2 ∧ (wordA w ≠ 0#11 ∨ (wordB w).extractLsb' 8 3 ≠ 0#3))
      ∨ ((wordOp w).toNat ∈ [3, 4] ∧ wordB w ≠ 0#11) →
    performPort (.command w) s = .next { s with code := .illegalCommand })
  ∧ (∀ w : Word, w ≠ 0#32 → decodeCommand w ≠ .ok .nop)

/-- R255: an idle block with nothing on its ports waits, unchanged. An empty `inbox` is the model's way to say that the host
drives nothing (notes/assumptions/1.md). -/
def Obligations.IdleBlockWaits : Prop := ∀ s : State, s.inbox = [] → step s = .next s

/-! ### Decoding and encoding -/

/-- R95, R96: the decoder accepts exactly the words that some row of the opcode table admits, and no word fits two rows. -/
def Obligations.DecodeAgreesWithOpcodeTable : Prop :=
  (∀ w : Word, (∃ i, decodeCommand w = .ok i) ↔ ∃ r ∈ opTable, r.admits w = true)
  ∧ (∀ (w : Word) (r q : OpRow), r ∈ opTable → q ∈ opTable → r.admits w = true → q.admits w = true → r = q)

/-- Decode and encode agree (R91, R98): every well-formed instruction is decoded from its encoding. -/
def Obligations.EncodeDecodeRoundTrip : Prop := ∀ i : Instr, i.wellFormed = true → decodePort (encode i) = .ok i

/-- The other direction (R91, R98): what is decoded is well formed, and its encoding is what was decoded. -/
def Obligations.DecodeEncodeRoundTrip : Prop :=
  ∀ (p : PortWord) (i : Instr), decodePort p = .ok i → i.wellFormed = true ∧ encode i = p

/-- Words written out from R91 and R98 decode to the instructions they stand for. The numbering of the bits of the two 48-bit
clauses (`bfx_sel` 40, `bfx_pos` 39:32, `bfx_value` 31:0) is the model's, not R98's (notes/assumptions/12.md). -/
def Obligations.SampleWordsDecode : Prop :=
  decodeTableWord 32 0x00000000 = some .nop ∧ decodeTableWord 32 0x10000000 = some .clr
  ∧ decodeTableWord 32 0x20000045 = some (.push 0x45) ∧ decodeTableWord 32 0x3000a000 = some (.eth 20)
  ∧ decodeTableWord 32 0x40007000 = some (.ip4 14) ∧ decodeTableWord 32 0x50000000 = some .next
  ∧ decodeTableWord 32 0x60000000 = some .run ∧ decodeTableWord 32 0x70013849 = some (.dump 39 73)
  ∧ decodeTableWord 48 0x00700000045 = some (.hexdigit 0x45 7) ∧ decodeTableWord 48 0x10600000040 = some (.bindigit 0x40 6)
  ∧ decodeTableWord 32 0x80000000 = none ∧ decodeTableWord 32 0x00400000 = none

/-! ### The whole machine -/

/-- The reset state satisfies the invariant (R50). -/
def Obligations.ResetSatisfiesInvariant : Prop := State.reset.Inv

/-- Every step keeps the invariant: the ranges of R22 to R25, the buffer loaded below `LEN`, each stop true of the bytes at the
cursor (R152, R153, R173, R175), each valid group a header the buffer holds with the identities of R32, the range and the
headers of each descriptor (R172) and the codes of R110. The type-of-service identity and the text codes are at the model's
setting of the parameters (notes/assumptions/3.md). -/
def Obligations.StepKeepsInvariant : Prop := ∀ s t : State, s.Inv → step s = .next t → t.Inv

/-- R66, R241: in a state that satisfies the invariant every one of the ten operations, whatever its operands, completes: no
access out of range can occur and no condition is fatal. For NEXT, RUN and DUMP this is the model's choice of consumers that
accept every beat (notes/assumptions/8.md); R281 makes it a proviso. -/
def Obligations.CommandsAlwaysComplete : Prop := ∀ (s : State) (i : Instr), s.Inv → Completes (exec i s)

/-- A step that does not answer a next state, in a state that satisfies the invariant, is a sample of the read port at a
register whose group holds no value (R272; notes/assumptions/4.md). A hang on a consumer that never accepts (R281, U14) is
not in the model: its streams accept every beat (notes/assumptions/8.md). -/
def Obligations.OnlyInvalidReadsFault : Prop :=
  ∀ s : State, s.Inv → Completes (step s)
    ∨ (step s = .fault .unspecifiedRegister
        ∧ ∃ a rest, s.inbox = .readRegister a :: rest ∧ s.readRegister a = none)

/-- R36: what each operation leaves alone, over all ten operations and all states. -/
def Obligations.WhoWritesWhat : Prop :=
  ∀ (i : Instr) (s t : State), exec i s = .next t →
    ((∀ d, i ≠ .push d) → t.buf = s.buf)
    ∧ ((∀ d, i ≠ .push d) → i ≠ .clr → t.len = s.len)
    ∧ (i ≠ .clr → i ≠ .next → i ≠ .run →
        t.cur = s.cur ∧ t.fcnt = s.fcnt ∧ t.fstart = s.fstart ∧ t.fend = s.fend ∧ t.stopReason = s.stopReason)
    ∧ ((i = .nop ∨ (∃ v p, i = .hexdigit v p) ∨ ∃ v p, i = .bindigit v p) → t.code = s.code)
    ∧ ((i = .nop ∨ (∃ d, i = .push d) ∨ (∃ v p, i = .hexdigit v p) ∨ ∃ v p, i = .bindigit v p) → t.sealed = s.sealed)
    ∧ (i ≠ .clr → (∀ a, i ≠ .eth a) → i ≠ .next → i ≠ .run → t.eth = s.eth)
    ∧ (i ≠ .clr → (∀ a, i ≠ .ip4 a) → i ≠ .next → i ≠ .run → t.ip = s.ip)
    ∧ (i ≠ .next → i ≠ .run → t.descHistory = s.descHistory)
    ∧ (i ≠ .run → (∀ a z, i ≠ .dump a z) → t.txtHistory = s.txtHistory)
    ∧ ((∀ v p, i ≠ .hexdigit v p) → (∀ v p, i ≠ .bindigit v p) → t.bfxOut = s.bfxOut)
    ∧ t.rdData = s.rdData ∧ t.inbox = s.inbox

/-- R239: a command that reports code 6 or 7 has changed `STATUS.code` and nothing else, and so has an illegal word. -/
def Obligations.RefusalWritesCodeOnly : Prop :=
  (∀ (i : Instr) (s t : State), exec i s = .next t → (∀ v p, i ≠ .hexdigit v p) → (∀ v p, i ≠ .bindigit v p) →
    t.code = .illegalCommand ∨ t.code = .bufferFull → t = { s with code := t.code })
  ∧ (∀ (p : PortWord) (e : Illegal) (s : State), decodePort p = .error e →
    performPort p s = .next { s with code := .illegalCommand })

/-- R237: an ETH or IP4 that reports a condition has written the code, `sealed` and its group's valid flag and nothing else;
the code is 1, 2 or 5, and for ETH 1. -/
def Obligations.DecoderConditionWrites : Prop :=
  (∀ (s t : State) (off : Nat), exec (.eth off) s = .next t → t.code ≠ .ok →
    t.code = .truncatedHeader ∧ t = { s with code := t.code, sealed := true, eth := none })
  ∧ (∀ (s t : State) (off : Nat), exec (.ip4 off) s = .next t → t.code ≠ .ok →
    (t.code = .truncatedHeader ∨ t.code = .invalidHeaderLength ∨ t.code = .invalidTotalLength)
    ∧ t = { s with code := t.code, sealed := true, ip := none })

/-- R238: a NEXT or RUN that begins unstopped and does not report 0 has stopped: code, stop code, `stopped`, `sealed`, both
groups without a value; a NEXT changes nothing else. After a RUN what its earlier iterations emitted stays: where its first
iteration reports 0, the beats of that iteration and of its dump stand in the history the RUN leaves, and the RUN is the
RUN of the state after them (R180), of which the same holds. -/
def Obligations.SplitterStopWrites : Prop :=
  (∀ s t : State, s.stopReason = none → exec .next s = .next t → t.code ≠ .ok →
    ∃ r, t.code = r.code
      ∧ t = { s with code := r.code, stopReason := some r, sealed := true, eth := none, ip := none })
  ∧ (∀ s t : State, s.stopReason = none → exec .run s = .next t →
    s.out <+: t.out ∧ t.sealed = true ∧ t.eth = none ∧ t.ip = none
      ∧ ∃ r, t.stopReason = some r ∧ t.code = r.code)
  ∧ (∀ s t u : State, exec .next s = .next u → u.code = .ok → exec .run s = .next t →
    ∃ v, exec (.dump u.fstart.toNat u.fend.toNat) u = .next v
      ∧ s.out <+: u.out ∧ u.out <+: v.out ∧ v.out <+: t.out ∧ exec .run v = .next t)

/-- R210: CLR is the only command that clears `stopped` and `sealed`; the stop code of a stopped splitter stays too (R247). -/
def Obligations.OnlyClrLeavesStopAndSeal : Prop :=
  ∀ (i : Instr) (s t : State), i ≠ .clr → exec i s = .next t →
    (s.sealed = true → t.sealed = true) ∧ (∀ r, s.stopReason = some r → t.stopReason = some r)

/-- R47: the histories only grow, in order, whatever the operation; neither loses or changes a beat. A beat of a stream is
appended to the history of that stream and leaves the other alone. -/
def Obligations.HistoriesOnlyGrow : Prop :=
  (∀ (i : Instr) (s t : State), exec i s = .next t →
    s.out <+: t.out ∧ s.descHistory <+: t.descHistory ∧ s.txtHistory <+: t.txtHistory)
  ∧ (∀ (s : State) (d : Descriptor),
    ({ s with out := s.out ++ [.desc d] } : State).descHistory = s.descHistory ++ [d]
    ∧ ({ s with out := s.out ++ [.desc d] } : State).txtHistory = s.txtHistory)
  ∧ (∀ (s : State) (cs : List Byte),
    ({ s with out := s.out ++ cs.map .char } : State).txtHistory = s.txtHistory ++ cs
    ∧ ({ s with out := s.out ++ cs.map .char } : State).descHistory = s.descHistory)

/-- R28: a command that reads the buffer leaves it sealed, and once it is sealed its length and contents cannot change, and it
stays sealed, until CLR. -/
def Obligations.SealedBufferIsImmutable : Prop :=
  (∀ (i : Instr) (s t : State), s.Inv → exec i s = .next t →
    i = .next ∨ i = .run ∨ (∃ a, i = .eth a) ∨ (∃ a, i = .ip4 a) ∨ (t.code = .ok ∧ ∃ a z, i = .dump a z) →
    t.sealed = true ∧ t.len = s.len ∧ t.buf = s.buf)
  ∧ (∀ (i : Instr) (s t : State), s.sealed = true → i ≠ .clr → exec i s = .next t →
    t.len = s.len ∧ t.buf = s.buf ∧ t.sealed = true)

/-- R66, U2: what the cells at or above `LEN` hold cannot be observed: two states that differ in those alone are taken by
every operation to states that differ in cells at or above `LEN` alone, or fault alike. -/
def Obligations.CellsAboveLenUnobservable : Prop :=
  ∀ (i : Instr) (s t : State), SameBelowLen s t → SameOutcome (exec i s) (exec i t)
end

