-- ==== Sys2Proof/Laws/Memory.lean ====
section
/-! SUPPORT. The laws of the datagram buffer: a read after a write, and that a write keeps the canonical form. -/

namespace Sys2Proof.Machine

@[simp] theorem Memory.read_nil (a : Nat) : Memory.read [] a = none := rfl

/-- A read after a write: the value written at its address, what was there before everywhere else. -/
theorem Memory.read_write (m : Memory) (a : Nat) (v : Byte) (x : Nat) :
    Memory.read (Memory.write m a v) x = if x = a then some v else Memory.read m x := by
  induction m with
  | nil => simp [Memory.write, Memory.read, eq_comm]
  | cons c m ih =>
    obtain ⟨k, b⟩ := c
    unfold Memory.write
    split
    · simp [Memory.read, eq_comm]
    · split
      · next h =>
        subst h
        by_cases hx : x = a
        · simp [Memory.read, hx]
        · simp [Memory.read, hx, Ne.symm hx]
      · next h =>
        by_cases hk : k = x
        · subst hk
          simp [Memory.read, Ne.symm h]
        · simp [Memory.read, hk, ih]

@[simp] theorem Memory.read_write_same (m : Memory) (a : Nat) (v : Byte) :
    Memory.read (Memory.write m a v) a = some v := by simp [Memory.read_write]

theorem Memory.read_write_other {m : Memory} {a x : Nat} (v : Byte) (h : x ≠ a) :
    Memory.read (Memory.write m a v) x = Memory.read m x := by simp [Memory.read_write, h]

theorem Memory.wf_nil : Memory.wf [] = true := rfl

/-- A memory whose addresses start at `lo` starts at any lower bound. -/
theorem Memory.wfFrom_mono {lo lo' : Nat} {m : Memory} (hle : lo' ≤ lo) (h : Memory.wfFrom lo m = true) :
    Memory.wfFrom lo' m = true := by
  cases m with
  | nil => rfl
  | cons c m =>
    obtain ⟨k, b⟩ := c
    simp only [Memory.wfFrom, Bool.and_eq_true, decide_eq_true_eq] at h ⊢
    exact ⟨⟨hle.trans h.1.1, h.1.2⟩, h.2⟩

theorem Memory.wfFrom_write {m : Memory} {lo a : Nat} (v : Byte) (ha : a < Config.bufSize) (hlo : lo ≤ a)
    (h : Memory.wfFrom lo m = true) : Memory.wfFrom lo (Memory.write m a v) = true := by
  induction m generalizing lo with
  | nil => simp [Memory.write, Memory.wfFrom, ha, hlo]
  | cons c m ih =>
    obtain ⟨k, b⟩ := c
    simp only [Memory.wfFrom, Bool.and_eq_true, decide_eq_true_eq] at h
    unfold Memory.write
    split
    · next hak =>
      simp only [Memory.wfFrom, Bool.and_eq_true, decide_eq_true_eq]
      exact ⟨⟨hlo, ha⟩, ⟨hak, h.1.2⟩, h.2⟩
    · split
      · next hak =>
        subst hak
        simp only [Memory.wfFrom, Bool.and_eq_true, decide_eq_true_eq]
        exact ⟨⟨hlo, ha⟩, h.2⟩
      · next h1 h2 =>
        simp only [Memory.wfFrom, Bool.and_eq_true, decide_eq_true_eq]
        exact ⟨h.1, ih (by omega) h.2⟩

/-- A write to a cell of the buffer keeps the canonical form. -/
theorem Memory.wf_write {m : Memory} {a : Nat} (v : Byte) (ha : a < Config.bufSize) (h : Memory.wf m = true) :
    Memory.wf (Memory.write m a v) = true := Memory.wfFrom_write v ha (Nat.zero_le a) h

/-- Nothing is listed below the lower bound. -/
theorem Memory.read_below {m : Memory} {lo a : Nat} (h : Memory.wfFrom lo m = true) (ha : a < lo) :
    Memory.read m a = none := by
  induction m generalizing lo with
  | nil => rfl
  | cons c m ih =>
    obtain ⟨k, b⟩ := c
    simp only [Memory.wfFrom, Bool.and_eq_true, decide_eq_true_eq] at h
    have hk : k ≠ a := by omega
    simp only [Memory.read, if_neg hk]
    exact ih h.2 (by omega)

/-- Nothing is listed past the buffer. -/
theorem Memory.read_cell {m : Memory} {lo a : Nat} {b : Byte} (h : Memory.wfFrom lo m = true)
    (hr : Memory.read m a = some b) : a < Config.bufSize := by
  induction m generalizing lo with
  | nil => cases hr
  | cons c m ih =>
    obtain ⟨k, v⟩ := c
    simp only [Memory.wfFrom, Bool.and_eq_true, decide_eq_true_eq] at h
    by_cases hk : k = a
    · exact hk ▸ h.1.2
    · rw [Memory.read, if_neg hk] at hr
      exact ih h.2 hr

theorem Memory.ext_from {m n : Memory} {lo : Nat} (hm : Memory.wfFrom lo m = true) (hn : Memory.wfFrom lo n = true)
    (h : ∀ a, Memory.read m a = Memory.read n a) : m = n := by
  induction m generalizing n lo with
  | nil =>
    cases n with
    | nil => rfl
    | cons c n => obtain ⟨k, b⟩ := c; simpa [Memory.read] using h k
  | cons c m ih =>
    obtain ⟨k, b⟩ := c
    cases n with
    | nil => simpa [Memory.read] using h k
    | cons d n =>
      obtain ⟨l, v⟩ := d
      simp only [Memory.wfFrom, Bool.and_eq_true, decide_eq_true_eq] at hm hn
      have hkl : k = l := by
        rcases Nat.lt_trichotomy k l with hlt | heq | hlt
        · have hk := h k
          rw [Memory.read, if_pos rfl, Memory.read, if_neg (by omega), Memory.read_below hn.2 (by omega)] at hk
          cases hk
        · exact heq
        · have hl := h l
          rw [Memory.read, if_neg (by omega), Memory.read_below hm.2 (by omega), Memory.read, if_pos rfl] at hl
          cases hl
      subst hkl
      have hb : b = v := by simpa [Memory.read] using h k
      subst hb
      refine congrArg _ (ih hm.2 hn.2 fun a => ?_)
      by_cases ha : k = a
      · subst ha
        rw [Memory.read_below hm.2 (by omega), Memory.read_below hn.2 (by omega)]
      · have := h a
        rwa [Memory.read, if_neg ha, Memory.read, if_neg ha] at this

/-- Two memories in canonical form that read the same are the same data. -/
theorem Memory.ext {m n : Memory} (hm : Memory.wf m = true) (hn : Memory.wf n = true)
    (h : ∀ a, Memory.read m a = Memory.read n a) : m = n := Memory.ext_from hm hn h

/-- The one operation that writes the buffer: it answers a next state exactly at a cell of the buffer, and then the buffer
alone is changed, by that write. -/
theorem State.memWrite_next {s t : State} {a : Nat} {v : Byte} (h : s.memWrite a v = .next t) :
    a < Config.bufSize ∧ t = { s with buf := Memory.write s.buf a v } := by
  unfold State.memWrite at h
  split at h
  · next ha => exact ⟨ha, by injection h with h; exact h.symm⟩
  · cases h

/-- The write of a byte keeps the canonical form. -/
theorem State.memWrite_wf {s t : State} {a : Nat} {v : Byte} (h : s.memWrite a v = .next t)
    (hw : Memory.wf s.buf = true) : Memory.wf t.buf = true := by
  obtain ⟨ha, rfl⟩ := State.memWrite_next h
  exact Memory.wf_write v ha hw

end Sys2Proof.Machine
end

