-- ==== Sys2Proof/Laws/State.lean ====
section
/-! SUPPORT. One lemma per field per update of the state: what each named update of Machine/Ops.lean (and the emission of
a frame) does to each field. With these no proof unfolds a record update. -/

namespace Sys2Proof.Machine

/-! ### `setCode` -/

@[simp] theorem State.setCode_buf (s : State) (c : Code) : (s.setCode c).buf = s.buf := rfl
@[simp] theorem State.setCode_len (s : State) (c : Code) : (s.setCode c).len = s.len := rfl
@[simp] theorem State.setCode_cur (s : State) (c : Code) : (s.setCode c).cur = s.cur := rfl
@[simp] theorem State.setCode_fcnt (s : State) (c : Code) : (s.setCode c).fcnt = s.fcnt := rfl
@[simp] theorem State.setCode_fstart (s : State) (c : Code) : (s.setCode c).fstart = s.fstart := rfl
@[simp] theorem State.setCode_fend (s : State) (c : Code) : (s.setCode c).fend = s.fend := rfl
@[simp] theorem State.setCode_code (s : State) (c : Code) : (s.setCode c).code = c := rfl
@[simp] theorem State.setCode_stopReason (s : State) (c : Code) : (s.setCode c).stopReason = s.stopReason := rfl
@[simp] theorem State.setCode_sealed (s : State) (c : Code) : (s.setCode c).sealed = s.sealed := rfl
@[simp] theorem State.setCode_eth (s : State) (c : Code) : (s.setCode c).eth = s.eth := rfl
@[simp] theorem State.setCode_ip (s : State) (c : Code) : (s.setCode c).ip = s.ip := rfl
@[simp] theorem State.setCode_out (s : State) (c : Code) : (s.setCode c).out = s.out := rfl
@[simp] theorem State.setCode_bfxOut (s : State) (c : Code) : (s.setCode c).bfxOut = s.bfxOut := rfl
@[simp] theorem State.setCode_rdData (s : State) (c : Code) : (s.setCode c).rdData = s.rdData := rfl
@[simp] theorem State.setCode_inbox (s : State) (c : Code) : (s.setCode c).inbox = s.inbox := rfl

/-! ### `setLen` -/

@[simp] theorem State.setLen_buf (s : State) (n : BitVec 11) : (s.setLen n).buf = s.buf := rfl
@[simp] theorem State.setLen_len (s : State) (n : BitVec 11) : (s.setLen n).len = n := rfl
@[simp] theorem State.setLen_cur (s : State) (n : BitVec 11) : (s.setLen n).cur = s.cur := rfl
@[simp] theorem State.setLen_fcnt (s : State) (n : BitVec 11) : (s.setLen n).fcnt = s.fcnt := rfl
@[simp] theorem State.setLen_fstart (s : State) (n : BitVec 11) : (s.setLen n).fstart = s.fstart := rfl
@[simp] theorem State.setLen_fend (s : State) (n : BitVec 11) : (s.setLen n).fend = s.fend := rfl
@[simp] theorem State.setLen_code (s : State) (n : BitVec 11) : (s.setLen n).code = s.code := rfl
@[simp] theorem State.setLen_stopReason (s : State) (n : BitVec 11) : (s.setLen n).stopReason = s.stopReason := rfl
@[simp] theorem State.setLen_sealed (s : State) (n : BitVec 11) : (s.setLen n).sealed = s.sealed := rfl
@[simp] theorem State.setLen_eth (s : State) (n : BitVec 11) : (s.setLen n).eth = s.eth := rfl
@[simp] theorem State.setLen_ip (s : State) (n : BitVec 11) : (s.setLen n).ip = s.ip := rfl
@[simp] theorem State.setLen_out (s : State) (n : BitVec 11) : (s.setLen n).out = s.out := rfl
@[simp] theorem State.setLen_bfxOut (s : State) (n : BitVec 11) : (s.setLen n).bfxOut = s.bfxOut := rfl
@[simp] theorem State.setLen_rdData (s : State) (n : BitVec 11) : (s.setLen n).rdData = s.rdData := rfl
@[simp] theorem State.setLen_inbox (s : State) (n : BitVec 11) : (s.setLen n).inbox = s.inbox := rfl

/-! ### `markSealed` -/

@[simp] theorem State.markSealed_buf (s : State) : (s.markSealed).buf = s.buf := rfl
@[simp] theorem State.markSealed_len (s : State) : (s.markSealed).len = s.len := rfl
@[simp] theorem State.markSealed_cur (s : State) : (s.markSealed).cur = s.cur := rfl
@[simp] theorem State.markSealed_fcnt (s : State) : (s.markSealed).fcnt = s.fcnt := rfl
@[simp] theorem State.markSealed_fstart (s : State) : (s.markSealed).fstart = s.fstart := rfl
@[simp] theorem State.markSealed_fend (s : State) : (s.markSealed).fend = s.fend := rfl
@[simp] theorem State.markSealed_code (s : State) : (s.markSealed).code = s.code := rfl
@[simp] theorem State.markSealed_stopReason (s : State) : (s.markSealed).stopReason = s.stopReason := rfl
@[simp] theorem State.markSealed_sealed (s : State) : (s.markSealed).sealed = true := rfl
@[simp] theorem State.markSealed_eth (s : State) : (s.markSealed).eth = s.eth := rfl
@[simp] theorem State.markSealed_ip (s : State) : (s.markSealed).ip = s.ip := rfl
@[simp] theorem State.markSealed_out (s : State) : (s.markSealed).out = s.out := rfl
@[simp] theorem State.markSealed_bfxOut (s : State) : (s.markSealed).bfxOut = s.bfxOut := rfl
@[simp] theorem State.markSealed_rdData (s : State) : (s.markSealed).rdData = s.rdData := rfl
@[simp] theorem State.markSealed_inbox (s : State) : (s.markSealed).inbox = s.inbox := rfl

/-! ### `setEth` -/

@[simp] theorem State.setEth_buf (s : State) (h : EthHeader) : (s.setEth h).buf = s.buf := rfl
@[simp] theorem State.setEth_len (s : State) (h : EthHeader) : (s.setEth h).len = s.len := rfl
@[simp] theorem State.setEth_cur (s : State) (h : EthHeader) : (s.setEth h).cur = s.cur := rfl
@[simp] theorem State.setEth_fcnt (s : State) (h : EthHeader) : (s.setEth h).fcnt = s.fcnt := rfl
@[simp] theorem State.setEth_fstart (s : State) (h : EthHeader) : (s.setEth h).fstart = s.fstart := rfl
@[simp] theorem State.setEth_fend (s : State) (h : EthHeader) : (s.setEth h).fend = s.fend := rfl
@[simp] theorem State.setEth_code (s : State) (h : EthHeader) : (s.setEth h).code = s.code := rfl
@[simp] theorem State.setEth_stopReason (s : State) (h : EthHeader) : (s.setEth h).stopReason = s.stopReason := rfl
@[simp] theorem State.setEth_sealed (s : State) (h : EthHeader) : (s.setEth h).sealed = s.sealed := rfl
@[simp] theorem State.setEth_eth (s : State) (h : EthHeader) : (s.setEth h).eth = some h := rfl
@[simp] theorem State.setEth_ip (s : State) (h : EthHeader) : (s.setEth h).ip = s.ip := rfl
@[simp] theorem State.setEth_out (s : State) (h : EthHeader) : (s.setEth h).out = s.out := rfl
@[simp] theorem State.setEth_bfxOut (s : State) (h : EthHeader) : (s.setEth h).bfxOut = s.bfxOut := rfl
@[simp] theorem State.setEth_rdData (s : State) (h : EthHeader) : (s.setEth h).rdData = s.rdData := rfl
@[simp] theorem State.setEth_inbox (s : State) (h : EthHeader) : (s.setEth h).inbox = s.inbox := rfl

/-! ### `setIp` -/

@[simp] theorem State.setIp_buf (s : State) (h : IpHeader) : (s.setIp h).buf = s.buf := rfl
@[simp] theorem State.setIp_len (s : State) (h : IpHeader) : (s.setIp h).len = s.len := rfl
@[simp] theorem State.setIp_cur (s : State) (h : IpHeader) : (s.setIp h).cur = s.cur := rfl
@[simp] theorem State.setIp_fcnt (s : State) (h : IpHeader) : (s.setIp h).fcnt = s.fcnt := rfl
@[simp] theorem State.setIp_fstart (s : State) (h : IpHeader) : (s.setIp h).fstart = s.fstart := rfl
@[simp] theorem State.setIp_fend (s : State) (h : IpHeader) : (s.setIp h).fend = s.fend := rfl
@[simp] theorem State.setIp_code (s : State) (h : IpHeader) : (s.setIp h).code = s.code := rfl
@[simp] theorem State.setIp_stopReason (s : State) (h : IpHeader) : (s.setIp h).stopReason = s.stopReason := rfl
@[simp] theorem State.setIp_sealed (s : State) (h : IpHeader) : (s.setIp h).sealed = s.sealed := rfl
@[simp] theorem State.setIp_eth (s : State) (h : IpHeader) : (s.setIp h).eth = s.eth := rfl
@[simp] theorem State.setIp_ip (s : State) (h : IpHeader) : (s.setIp h).ip = some h := rfl
@[simp] theorem State.setIp_out (s : State) (h : IpHeader) : (s.setIp h).out = s.out := rfl
@[simp] theorem State.setIp_bfxOut (s : State) (h : IpHeader) : (s.setIp h).bfxOut = s.bfxOut := rfl
@[simp] theorem State.setIp_rdData (s : State) (h : IpHeader) : (s.setIp h).rdData = s.rdData := rfl
@[simp] theorem State.setIp_inbox (s : State) (h : IpHeader) : (s.setIp h).inbox = s.inbox := rfl

/-! ### `setRange` -/

@[simp] theorem State.setRange_buf (s : State) (a b : BitVec 11) : (s.setRange a b).buf = s.buf := rfl
@[simp] theorem State.setRange_len (s : State) (a b : BitVec 11) : (s.setRange a b).len = s.len := rfl
@[simp] theorem State.setRange_cur (s : State) (a b : BitVec 11) : (s.setRange a b).cur = s.cur := rfl
@[simp] theorem State.setRange_fcnt (s : State) (a b : BitVec 11) : (s.setRange a b).fcnt = s.fcnt := rfl
@[simp] theorem State.setRange_fstart (s : State) (a b : BitVec 11) : (s.setRange a b).fstart = a := rfl
@[simp] theorem State.setRange_fend (s : State) (a b : BitVec 11) : (s.setRange a b).fend = b := rfl
@[simp] theorem State.setRange_code (s : State) (a b : BitVec 11) : (s.setRange a b).code = s.code := rfl
@[simp] theorem State.setRange_stopReason (s : State) (a b : BitVec 11) : (s.setRange a b).stopReason = s.stopReason := rfl
@[simp] theorem State.setRange_sealed (s : State) (a b : BitVec 11) : (s.setRange a b).sealed = s.sealed := rfl
@[simp] theorem State.setRange_eth (s : State) (a b : BitVec 11) : (s.setRange a b).eth = s.eth := rfl
@[simp] theorem State.setRange_ip (s : State) (a b : BitVec 11) : (s.setRange a b).ip = s.ip := rfl
@[simp] theorem State.setRange_out (s : State) (a b : BitVec 11) : (s.setRange a b).out = s.out := rfl
@[simp] theorem State.setRange_bfxOut (s : State) (a b : BitVec 11) : (s.setRange a b).bfxOut = s.bfxOut := rfl
@[simp] theorem State.setRange_rdData (s : State) (a b : BitVec 11) : (s.setRange a b).rdData = s.rdData := rfl
@[simp] theorem State.setRange_inbox (s : State) (a b : BitVec 11) : (s.setRange a b).inbox = s.inbox := rfl

/-! ### `advance` -/

@[simp] theorem State.advance_buf (s : State) (t : BitVec 11) : (s.advance t).buf = s.buf := rfl
@[simp] theorem State.advance_len (s : State) (t : BitVec 11) : (s.advance t).len = s.len := rfl
@[simp] theorem State.advance_cur (s : State) (t : BitVec 11) : (s.advance t).cur = t := rfl
@[simp] theorem State.advance_fcnt (s : State) (t : BitVec 11) : (s.advance t).fcnt = s.fcnt + 1#8 := rfl
@[simp] theorem State.advance_fstart (s : State) (t : BitVec 11) : (s.advance t).fstart = s.fstart := rfl
@[simp] theorem State.advance_fend (s : State) (t : BitVec 11) : (s.advance t).fend = s.fend := rfl
@[simp] theorem State.advance_code (s : State) (t : BitVec 11) : (s.advance t).code = s.code := rfl
@[simp] theorem State.advance_stopReason (s : State) (t : BitVec 11) : (s.advance t).stopReason = s.stopReason := rfl
@[simp] theorem State.advance_sealed (s : State) (t : BitVec 11) : (s.advance t).sealed = s.sealed := rfl
@[simp] theorem State.advance_eth (s : State) (t : BitVec 11) : (s.advance t).eth = s.eth := rfl
@[simp] theorem State.advance_ip (s : State) (t : BitVec 11) : (s.advance t).ip = s.ip := rfl
@[simp] theorem State.advance_out (s : State) (t : BitVec 11) : (s.advance t).out = s.out := rfl
@[simp] theorem State.advance_bfxOut (s : State) (t : BitVec 11) : (s.advance t).bfxOut = s.bfxOut := rfl
@[simp] theorem State.advance_rdData (s : State) (t : BitVec 11) : (s.advance t).rdData = s.rdData := rfl
@[simp] theorem State.advance_inbox (s : State) (t : BitVec 11) : (s.advance t).inbox = s.inbox := rfl

/-! ### `setBfxOut` -/

@[simp] theorem State.setBfxOut_buf (s : State) (n : BitVec 4) : (s.setBfxOut n).buf = s.buf := rfl
@[simp] theorem State.setBfxOut_len (s : State) (n : BitVec 4) : (s.setBfxOut n).len = s.len := rfl
@[simp] theorem State.setBfxOut_cur (s : State) (n : BitVec 4) : (s.setBfxOut n).cur = s.cur := rfl
@[simp] theorem State.setBfxOut_fcnt (s : State) (n : BitVec 4) : (s.setBfxOut n).fcnt = s.fcnt := rfl
@[simp] theorem State.setBfxOut_fstart (s : State) (n : BitVec 4) : (s.setBfxOut n).fstart = s.fstart := rfl
@[simp] theorem State.setBfxOut_fend (s : State) (n : BitVec 4) : (s.setBfxOut n).fend = s.fend := rfl
@[simp] theorem State.setBfxOut_code (s : State) (n : BitVec 4) : (s.setBfxOut n).code = s.code := rfl
@[simp] theorem State.setBfxOut_stopReason (s : State) (n : BitVec 4) : (s.setBfxOut n).stopReason = s.stopReason := rfl
@[simp] theorem State.setBfxOut_sealed (s : State) (n : BitVec 4) : (s.setBfxOut n).sealed = s.sealed := rfl
@[simp] theorem State.setBfxOut_eth (s : State) (n : BitVec 4) : (s.setBfxOut n).eth = s.eth := rfl
@[simp] theorem State.setBfxOut_ip (s : State) (n : BitVec 4) : (s.setBfxOut n).ip = s.ip := rfl
@[simp] theorem State.setBfxOut_out (s : State) (n : BitVec 4) : (s.setBfxOut n).out = s.out := rfl
@[simp] theorem State.setBfxOut_bfxOut (s : State) (n : BitVec 4) : (s.setBfxOut n).bfxOut = n := rfl
@[simp] theorem State.setBfxOut_rdData (s : State) (n : BitVec 4) : (s.setBfxOut n).rdData = s.rdData := rfl
@[simp] theorem State.setBfxOut_inbox (s : State) (n : BitVec 4) : (s.setBfxOut n).inbox = s.inbox := rfl

/-! ### `setRdData` -/

@[simp] theorem State.setRdData_buf (s : State) (w : Word) : (s.setRdData w).buf = s.buf := rfl
@[simp] theorem State.setRdData_len (s : State) (w : Word) : (s.setRdData w).len = s.len := rfl
@[simp] theorem State.setRdData_cur (s : State) (w : Word) : (s.setRdData w).cur = s.cur := rfl
@[simp] theorem State.setRdData_fcnt (s : State) (w : Word) : (s.setRdData w).fcnt = s.fcnt := rfl
@[simp] theorem State.setRdData_fstart (s : State) (w : Word) : (s.setRdData w).fstart = s.fstart := rfl
@[simp] theorem State.setRdData_fend (s : State) (w : Word) : (s.setRdData w).fend = s.fend := rfl
@[simp] theorem State.setRdData_code (s : State) (w : Word) : (s.setRdData w).code = s.code := rfl
@[simp] theorem State.setRdData_stopReason (s : State) (w : Word) : (s.setRdData w).stopReason = s.stopReason := rfl
@[simp] theorem State.setRdData_sealed (s : State) (w : Word) : (s.setRdData w).sealed = s.sealed := rfl
@[simp] theorem State.setRdData_eth (s : State) (w : Word) : (s.setRdData w).eth = s.eth := rfl
@[simp] theorem State.setRdData_ip (s : State) (w : Word) : (s.setRdData w).ip = s.ip := rfl
@[simp] theorem State.setRdData_out (s : State) (w : Word) : (s.setRdData w).out = s.out := rfl
@[simp] theorem State.setRdData_bfxOut (s : State) (w : Word) : (s.setRdData w).bfxOut = s.bfxOut := rfl
@[simp] theorem State.setRdData_rdData (s : State) (w : Word) : (s.setRdData w).rdData = w := rfl
@[simp] theorem State.setRdData_inbox (s : State) (w : Word) : (s.setRdData w).inbox = s.inbox := rfl

/-! ### `setInbox` -/

@[simp] theorem State.setInbox_buf (s : State) (l : List HostInput) : (s.setInbox l).buf = s.buf := rfl
@[simp] theorem State.setInbox_len (s : State) (l : List HostInput) : (s.setInbox l).len = s.len := rfl
@[simp] theorem State.setInbox_cur (s : State) (l : List HostInput) : (s.setInbox l).cur = s.cur := rfl
@[simp] theorem State.setInbox_fcnt (s : State) (l : List HostInput) : (s.setInbox l).fcnt = s.fcnt := rfl
@[simp] theorem State.setInbox_fstart (s : State) (l : List HostInput) : (s.setInbox l).fstart = s.fstart := rfl
@[simp] theorem State.setInbox_fend (s : State) (l : List HostInput) : (s.setInbox l).fend = s.fend := rfl
@[simp] theorem State.setInbox_code (s : State) (l : List HostInput) : (s.setInbox l).code = s.code := rfl
@[simp] theorem State.setInbox_stopReason (s : State) (l : List HostInput) : (s.setInbox l).stopReason = s.stopReason := rfl
@[simp] theorem State.setInbox_sealed (s : State) (l : List HostInput) : (s.setInbox l).sealed = s.sealed := rfl
@[simp] theorem State.setInbox_eth (s : State) (l : List HostInput) : (s.setInbox l).eth = s.eth := rfl
@[simp] theorem State.setInbox_ip (s : State) (l : List HostInput) : (s.setInbox l).ip = s.ip := rfl
@[simp] theorem State.setInbox_out (s : State) (l : List HostInput) : (s.setInbox l).out = s.out := rfl
@[simp] theorem State.setInbox_bfxOut (s : State) (l : List HostInput) : (s.setInbox l).bfxOut = s.bfxOut := rfl
@[simp] theorem State.setInbox_rdData (s : State) (l : List HostInput) : (s.setInbox l).rdData = s.rdData := rfl
@[simp] theorem State.setInbox_inbox (s : State) (l : List HostInput) : (s.setInbox l).inbox = l := rfl

/-! ### `emitDesc` -/

@[simp] theorem State.emitDesc_buf (s : State) (d : Descriptor) : (s.emitDesc d).buf = s.buf := rfl
@[simp] theorem State.emitDesc_len (s : State) (d : Descriptor) : (s.emitDesc d).len = s.len := rfl
@[simp] theorem State.emitDesc_cur (s : State) (d : Descriptor) : (s.emitDesc d).cur = s.cur := rfl
@[simp] theorem State.emitDesc_fcnt (s : State) (d : Descriptor) : (s.emitDesc d).fcnt = s.fcnt := rfl
@[simp] theorem State.emitDesc_fstart (s : State) (d : Descriptor) : (s.emitDesc d).fstart = s.fstart := rfl
@[simp] theorem State.emitDesc_fend (s : State) (d : Descriptor) : (s.emitDesc d).fend = s.fend := rfl
@[simp] theorem State.emitDesc_code (s : State) (d : Descriptor) : (s.emitDesc d).code = s.code := rfl
@[simp] theorem State.emitDesc_stopReason (s : State) (d : Descriptor) : (s.emitDesc d).stopReason = s.stopReason := rfl
@[simp] theorem State.emitDesc_sealed (s : State) (d : Descriptor) : (s.emitDesc d).sealed = s.sealed := rfl
@[simp] theorem State.emitDesc_eth (s : State) (d : Descriptor) : (s.emitDesc d).eth = s.eth := rfl
@[simp] theorem State.emitDesc_ip (s : State) (d : Descriptor) : (s.emitDesc d).ip = s.ip := rfl
@[simp] theorem State.emitDesc_out (s : State) (d : Descriptor) : (s.emitDesc d).out = s.out ++ [.desc d] := rfl
@[simp] theorem State.emitDesc_bfxOut (s : State) (d : Descriptor) : (s.emitDesc d).bfxOut = s.bfxOut := rfl
@[simp] theorem State.emitDesc_rdData (s : State) (d : Descriptor) : (s.emitDesc d).rdData = s.rdData := rfl
@[simp] theorem State.emitDesc_inbox (s : State) (d : Descriptor) : (s.emitDesc d).inbox = s.inbox := rfl

/-! ### `emitText` -/

@[simp] theorem State.emitText_buf (s : State) (cs : List Byte) : (s.emitText cs).buf = s.buf := rfl
@[simp] theorem State.emitText_len (s : State) (cs : List Byte) : (s.emitText cs).len = s.len := rfl
@[simp] theorem State.emitText_cur (s : State) (cs : List Byte) : (s.emitText cs).cur = s.cur := rfl
@[simp] theorem State.emitText_fcnt (s : State) (cs : List Byte) : (s.emitText cs).fcnt = s.fcnt := rfl
@[simp] theorem State.emitText_fstart (s : State) (cs : List Byte) : (s.emitText cs).fstart = s.fstart := rfl
@[simp] theorem State.emitText_fend (s : State) (cs : List Byte) : (s.emitText cs).fend = s.fend := rfl
@[simp] theorem State.emitText_code (s : State) (cs : List Byte) : (s.emitText cs).code = s.code := rfl
@[simp] theorem State.emitText_stopReason (s : State) (cs : List Byte) : (s.emitText cs).stopReason = s.stopReason := rfl
@[simp] theorem State.emitText_sealed (s : State) (cs : List Byte) : (s.emitText cs).sealed = s.sealed := rfl
@[simp] theorem State.emitText_eth (s : State) (cs : List Byte) : (s.emitText cs).eth = s.eth := rfl
@[simp] theorem State.emitText_ip (s : State) (cs : List Byte) : (s.emitText cs).ip = s.ip := rfl
@[simp] theorem State.emitText_out (s : State) (cs : List Byte) : (s.emitText cs).out = s.out ++ cs.map .char := rfl
@[simp] theorem State.emitText_bfxOut (s : State) (cs : List Byte) : (s.emitText cs).bfxOut = s.bfxOut := rfl
@[simp] theorem State.emitText_rdData (s : State) (cs : List Byte) : (s.emitText cs).rdData = s.rdData := rfl
@[simp] theorem State.emitText_inbox (s : State) (cs : List Byte) : (s.emitText cs).inbox = s.inbox := rfl

/-! ### `raise_refusal` -/

@[simp] theorem State.raise_refusal_buf (s : State) (c : Code) : (s.raise c .refusal).buf = s.buf := rfl
@[simp] theorem State.raise_refusal_len (s : State) (c : Code) : (s.raise c .refusal).len = s.len := rfl
@[simp] theorem State.raise_refusal_cur (s : State) (c : Code) : (s.raise c .refusal).cur = s.cur := rfl
@[simp] theorem State.raise_refusal_fcnt (s : State) (c : Code) : (s.raise c .refusal).fcnt = s.fcnt := rfl
@[simp] theorem State.raise_refusal_fstart (s : State) (c : Code) : (s.raise c .refusal).fstart = s.fstart := rfl
@[simp] theorem State.raise_refusal_fend (s : State) (c : Code) : (s.raise c .refusal).fend = s.fend := rfl
@[simp] theorem State.raise_refusal_code (s : State) (c : Code) : (s.raise c .refusal).code = c := rfl
@[simp] theorem State.raise_refusal_stopReason (s : State) (c : Code) : (s.raise c .refusal).stopReason = s.stopReason := rfl
@[simp] theorem State.raise_refusal_sealed (s : State) (c : Code) : (s.raise c .refusal).sealed = s.sealed := rfl
@[simp] theorem State.raise_refusal_eth (s : State) (c : Code) : (s.raise c .refusal).eth = s.eth := rfl
@[simp] theorem State.raise_refusal_ip (s : State) (c : Code) : (s.raise c .refusal).ip = s.ip := rfl
@[simp] theorem State.raise_refusal_out (s : State) (c : Code) : (s.raise c .refusal).out = s.out := rfl
@[simp] theorem State.raise_refusal_bfxOut (s : State) (c : Code) : (s.raise c .refusal).bfxOut = s.bfxOut := rfl
@[simp] theorem State.raise_refusal_rdData (s : State) (c : Code) : (s.raise c .refusal).rdData = s.rdData := rfl
@[simp] theorem State.raise_refusal_inbox (s : State) (c : Code) : (s.raise c .refusal).inbox = s.inbox := rfl

/-! ### `raise_ethDecode` -/

@[simp] theorem State.raise_ethDecode_buf (s : State) (c : Code) : (s.raise c .ethDecode).buf = s.buf := rfl
@[simp] theorem State.raise_ethDecode_len (s : State) (c : Code) : (s.raise c .ethDecode).len = s.len := rfl
@[simp] theorem State.raise_ethDecode_cur (s : State) (c : Code) : (s.raise c .ethDecode).cur = s.cur := rfl
@[simp] theorem State.raise_ethDecode_fcnt (s : State) (c : Code) : (s.raise c .ethDecode).fcnt = s.fcnt := rfl
@[simp] theorem State.raise_ethDecode_fstart (s : State) (c : Code) : (s.raise c .ethDecode).fstart = s.fstart := rfl
@[simp] theorem State.raise_ethDecode_fend (s : State) (c : Code) : (s.raise c .ethDecode).fend = s.fend := rfl
@[simp] theorem State.raise_ethDecode_code (s : State) (c : Code) : (s.raise c .ethDecode).code = c := rfl
@[simp] theorem State.raise_ethDecode_stopReason (s : State) (c : Code) : (s.raise c .ethDecode).stopReason = s.stopReason := rfl
@[simp] theorem State.raise_ethDecode_sealed (s : State) (c : Code) : (s.raise c .ethDecode).sealed = true := rfl
@[simp] theorem State.raise_ethDecode_eth (s : State) (c : Code) : (s.raise c .ethDecode).eth = none := rfl
@[simp] theorem State.raise_ethDecode_ip (s : State) (c : Code) : (s.raise c .ethDecode).ip = s.ip := rfl
@[simp] theorem State.raise_ethDecode_out (s : State) (c : Code) : (s.raise c .ethDecode).out = s.out := rfl
@[simp] theorem State.raise_ethDecode_bfxOut (s : State) (c : Code) : (s.raise c .ethDecode).bfxOut = s.bfxOut := rfl
@[simp] theorem State.raise_ethDecode_rdData (s : State) (c : Code) : (s.raise c .ethDecode).rdData = s.rdData := rfl
@[simp] theorem State.raise_ethDecode_inbox (s : State) (c : Code) : (s.raise c .ethDecode).inbox = s.inbox := rfl

/-! ### `raise_ipDecode` -/

@[simp] theorem State.raise_ipDecode_buf (s : State) (c : Code) : (s.raise c .ipDecode).buf = s.buf := rfl
@[simp] theorem State.raise_ipDecode_len (s : State) (c : Code) : (s.raise c .ipDecode).len = s.len := rfl
@[simp] theorem State.raise_ipDecode_cur (s : State) (c : Code) : (s.raise c .ipDecode).cur = s.cur := rfl
@[simp] theorem State.raise_ipDecode_fcnt (s : State) (c : Code) : (s.raise c .ipDecode).fcnt = s.fcnt := rfl
@[simp] theorem State.raise_ipDecode_fstart (s : State) (c : Code) : (s.raise c .ipDecode).fstart = s.fstart := rfl
@[simp] theorem State.raise_ipDecode_fend (s : State) (c : Code) : (s.raise c .ipDecode).fend = s.fend := rfl
@[simp] theorem State.raise_ipDecode_code (s : State) (c : Code) : (s.raise c .ipDecode).code = c := rfl
@[simp] theorem State.raise_ipDecode_stopReason (s : State) (c : Code) : (s.raise c .ipDecode).stopReason = s.stopReason := rfl
@[simp] theorem State.raise_ipDecode_sealed (s : State) (c : Code) : (s.raise c .ipDecode).sealed = true := rfl
@[simp] theorem State.raise_ipDecode_eth (s : State) (c : Code) : (s.raise c .ipDecode).eth = s.eth := rfl
@[simp] theorem State.raise_ipDecode_ip (s : State) (c : Code) : (s.raise c .ipDecode).ip = none := rfl
@[simp] theorem State.raise_ipDecode_out (s : State) (c : Code) : (s.raise c .ipDecode).out = s.out := rfl
@[simp] theorem State.raise_ipDecode_bfxOut (s : State) (c : Code) : (s.raise c .ipDecode).bfxOut = s.bfxOut := rfl
@[simp] theorem State.raise_ipDecode_rdData (s : State) (c : Code) : (s.raise c .ipDecode).rdData = s.rdData := rfl
@[simp] theorem State.raise_ipDecode_inbox (s : State) (c : Code) : (s.raise c .ipDecode).inbox = s.inbox := rfl

/-! ### `raise_splitter` -/

@[simp] theorem State.raise_splitter_buf (s : State) (c : Code) (r : StopReason) : (s.raise c (.splitter r)).buf = s.buf := rfl
@[simp] theorem State.raise_splitter_len (s : State) (c : Code) (r : StopReason) : (s.raise c (.splitter r)).len = s.len := rfl
@[simp] theorem State.raise_splitter_cur (s : State) (c : Code) (r : StopReason) : (s.raise c (.splitter r)).cur = s.cur := rfl
@[simp] theorem State.raise_splitter_fcnt (s : State) (c : Code) (r : StopReason) : (s.raise c (.splitter r)).fcnt = s.fcnt := rfl
@[simp] theorem State.raise_splitter_fstart (s : State) (c : Code) (r : StopReason) : (s.raise c (.splitter r)).fstart = s.fstart := rfl
@[simp] theorem State.raise_splitter_fend (s : State) (c : Code) (r : StopReason) : (s.raise c (.splitter r)).fend = s.fend := rfl
@[simp] theorem State.raise_splitter_code (s : State) (c : Code) (r : StopReason) : (s.raise c (.splitter r)).code = c := rfl
@[simp] theorem State.raise_splitter_stopReason (s : State) (c : Code) (r : StopReason) : (s.raise c (.splitter r)).stopReason = some r := rfl
@[simp] theorem State.raise_splitter_sealed (s : State) (c : Code) (r : StopReason) : (s.raise c (.splitter r)).sealed = true := rfl
@[simp] theorem State.raise_splitter_eth (s : State) (c : Code) (r : StopReason) : (s.raise c (.splitter r)).eth = none := rfl
@[simp] theorem State.raise_splitter_ip (s : State) (c : Code) (r : StopReason) : (s.raise c (.splitter r)).ip = none := rfl
@[simp] theorem State.raise_splitter_out (s : State) (c : Code) (r : StopReason) : (s.raise c (.splitter r)).out = s.out := rfl
@[simp] theorem State.raise_splitter_bfxOut (s : State) (c : Code) (r : StopReason) : (s.raise c (.splitter r)).bfxOut = s.bfxOut := rfl
@[simp] theorem State.raise_splitter_rdData (s : State) (c : Code) (r : StopReason) : (s.raise c (.splitter r)).rdData = s.rdData := rfl
@[simp] theorem State.raise_splitter_inbox (s : State) (c : Code) (r : StopReason) : (s.raise c (.splitter r)).inbox = s.inbox := rfl

/-! ### `stopWith` -/

@[simp] theorem State.stopWith_buf (s : State) (r : StopReason) : (s.stopWith r).buf = s.buf := rfl
@[simp] theorem State.stopWith_len (s : State) (r : StopReason) : (s.stopWith r).len = s.len := rfl
@[simp] theorem State.stopWith_cur (s : State) (r : StopReason) : (s.stopWith r).cur = s.cur := rfl
@[simp] theorem State.stopWith_fcnt (s : State) (r : StopReason) : (s.stopWith r).fcnt = s.fcnt := rfl
@[simp] theorem State.stopWith_fstart (s : State) (r : StopReason) : (s.stopWith r).fstart = s.fstart := rfl
@[simp] theorem State.stopWith_fend (s : State) (r : StopReason) : (s.stopWith r).fend = s.fend := rfl
@[simp] theorem State.stopWith_code (s : State) (r : StopReason) : (s.stopWith r).code = r.code := rfl
@[simp] theorem State.stopWith_stopReason (s : State) (r : StopReason) : (s.stopWith r).stopReason = some r := rfl
@[simp] theorem State.stopWith_sealed (s : State) (r : StopReason) : (s.stopWith r).sealed = true := rfl
@[simp] theorem State.stopWith_eth (s : State) (r : StopReason) : (s.stopWith r).eth = none := rfl
@[simp] theorem State.stopWith_ip (s : State) (r : StopReason) : (s.stopWith r).ip = none := rfl
@[simp] theorem State.stopWith_out (s : State) (r : StopReason) : (s.stopWith r).out = s.out := rfl
@[simp] theorem State.stopWith_bfxOut (s : State) (r : StopReason) : (s.stopWith r).bfxOut = s.bfxOut := rfl
@[simp] theorem State.stopWith_rdData (s : State) (r : StopReason) : (s.stopWith r).rdData = s.rdData := rfl
@[simp] theorem State.stopWith_inbox (s : State) (r : StopReason) : (s.stopWith r).inbox = s.inbox := rfl

/-! ### `clear` -/

@[simp] theorem State.clear_buf (s : State) : (s.clear).buf = s.buf := rfl
@[simp] theorem State.clear_len (s : State) : (s.clear).len = 0#11 := rfl
@[simp] theorem State.clear_cur (s : State) : (s.clear).cur = 0#11 := rfl
@[simp] theorem State.clear_fcnt (s : State) : (s.clear).fcnt = 0#8 := rfl
@[simp] theorem State.clear_fstart (s : State) : (s.clear).fstart = 0#11 := rfl
@[simp] theorem State.clear_fend (s : State) : (s.clear).fend = 0#11 := rfl
@[simp] theorem State.clear_code (s : State) : (s.clear).code = .ok := rfl
@[simp] theorem State.clear_stopReason (s : State) : (s.clear).stopReason = none := rfl
@[simp] theorem State.clear_sealed (s : State) : (s.clear).sealed = false := rfl
@[simp] theorem State.clear_eth (s : State) : (s.clear).eth = none := rfl
@[simp] theorem State.clear_ip (s : State) : (s.clear).ip = none := rfl
@[simp] theorem State.clear_out (s : State) : (s.clear).out = s.out := rfl
@[simp] theorem State.clear_bfxOut (s : State) : (s.clear).bfxOut = s.bfxOut := rfl
@[simp] theorem State.clear_rdData (s : State) : (s.clear).rdData = s.rdData := rfl
@[simp] theorem State.clear_inbox (s : State) : (s.clear).inbox = s.inbox := rfl

/-! ### `applyRst` -/

@[simp] theorem State.applyRst_buf (s : State) : (s.applyRst).buf = s.buf := rfl
@[simp] theorem State.applyRst_len (s : State) : (s.applyRst).len = 0#11 := rfl
@[simp] theorem State.applyRst_cur (s : State) : (s.applyRst).cur = 0#11 := rfl
@[simp] theorem State.applyRst_fcnt (s : State) : (s.applyRst).fcnt = 0#8 := rfl
@[simp] theorem State.applyRst_fstart (s : State) : (s.applyRst).fstart = 0#11 := rfl
@[simp] theorem State.applyRst_fend (s : State) : (s.applyRst).fend = 0#11 := rfl
@[simp] theorem State.applyRst_code (s : State) : (s.applyRst).code = .ok := rfl
@[simp] theorem State.applyRst_stopReason (s : State) : (s.applyRst).stopReason = none := rfl
@[simp] theorem State.applyRst_sealed (s : State) : (s.applyRst).sealed = false := rfl
@[simp] theorem State.applyRst_eth (s : State) : (s.applyRst).eth = none := rfl
@[simp] theorem State.applyRst_ip (s : State) : (s.applyRst).ip = none := rfl
@[simp] theorem State.applyRst_out (s : State) : (s.applyRst).out = [] := rfl
@[simp] theorem State.applyRst_bfxOut (s : State) : (s.applyRst).bfxOut = s.bfxOut := rfl
@[simp] theorem State.applyRst_rdData (s : State) : (s.applyRst).rdData = s.rdData := rfl
@[simp] theorem State.applyRst_inbox (s : State) : (s.applyRst).inbox = s.inbox := rfl

/-! ### `emitFrame` -/

@[simp] theorem State.emitFrame_buf (s : State) (e : EthHeader) (i : IpHeader) (z : Nat) : (s.emitFrame e i z).buf = s.buf := rfl
@[simp] theorem State.emitFrame_len (s : State) (e : EthHeader) (i : IpHeader) (z : Nat) : (s.emitFrame e i z).len = s.len := rfl
@[simp] theorem State.emitFrame_cur (s : State) (e : EthHeader) (i : IpHeader) (z : Nat) : (s.emitFrame e i z).cur = toAddr z := rfl
@[simp] theorem State.emitFrame_fcnt (s : State) (e : EthHeader) (i : IpHeader) (z : Nat) : (s.emitFrame e i z).fcnt = s.fcnt + 1#8 := rfl
@[simp] theorem State.emitFrame_fstart (s : State) (e : EthHeader) (i : IpHeader) (z : Nat) : (s.emitFrame e i z).fstart = s.cur := rfl
@[simp] theorem State.emitFrame_fend (s : State) (e : EthHeader) (i : IpHeader) (z : Nat) : (s.emitFrame e i z).fend = toAddr z := rfl
@[simp] theorem State.emitFrame_code (s : State) (e : EthHeader) (i : IpHeader) (z : Nat) : (s.emitFrame e i z).code = .ok := rfl
@[simp] theorem State.emitFrame_stopReason (s : State) (e : EthHeader) (i : IpHeader) (z : Nat) : (s.emitFrame e i z).stopReason = s.stopReason := rfl
@[simp] theorem State.emitFrame_sealed (s : State) (e : EthHeader) (i : IpHeader) (z : Nat) : (s.emitFrame e i z).sealed = true := rfl
@[simp] theorem State.emitFrame_eth (s : State) (e : EthHeader) (i : IpHeader) (z : Nat) : (s.emitFrame e i z).eth = some e := rfl
@[simp] theorem State.emitFrame_ip (s : State) (e : EthHeader) (i : IpHeader) (z : Nat) : (s.emitFrame e i z).ip = some i := rfl
@[simp] theorem State.emitFrame_out (s : State) (e : EthHeader) (i : IpHeader) (z : Nat) : (s.emitFrame e i z).out = s.out ++ [.desc (frameDescriptor s.cur (toAddr z) e i)] := rfl
@[simp] theorem State.emitFrame_bfxOut (s : State) (e : EthHeader) (i : IpHeader) (z : Nat) : (s.emitFrame e i z).bfxOut = s.bfxOut := rfl
@[simp] theorem State.emitFrame_rdData (s : State) (e : EthHeader) (i : IpHeader) (z : Nat) : (s.emitFrame e i z).rdData = s.rdData := rfl
@[simp] theorem State.emitFrame_inbox (s : State) (e : EthHeader) (i : IpHeader) (z : Nat) : (s.emitFrame e i z).inbox = s.inbox := rfl

end Sys2Proof.Machine
end

