-- ==== Sys2Proof/Laws/Ops.lean ====
section
/-! SUPPORT. One lemma per shared operation that says what it can do: the bit-field functions, reading the buffer,
sequencing, the range checks, and the emission of a dump. -/

namespace Sys2Proof.Machine

/-! ### The bit-field functions -/

theorem hexDigit_lt (v p : Nat) : hexDigit v p < 16 := Nat.mod_lt _ (by decide)

theorem binaryDigit_lt (v p : Nat) : binaryDigit v p < 2 := Nat.mod_lt _ (by decide)

@[simp] theorem hexDigit_zero (v : Nat) : hexDigit v 0 = v % 16 := by simp [hexDigit]

@[simp] theorem hexDigit_one (v : Nat) : hexDigit v 1 = v / 16 % 16 := by simp [hexDigit]

/-- A position past the digits of a number reads zero (R121). -/
theorem hexDigit_eq_zero {v p : Nat} (h : v < 16 ^ p) : hexDigit v p = 0 := by
  simp [hexDigit, Nat.div_eq_of_lt h]

/-- A position past the bits of a number reads zero (R122). -/
theorem binaryDigit_eq_zero {v p : Nat} (h : v < 2 ^ p) : binaryDigit v p = 0 := by
  simp [binaryDigit, Nat.div_eq_of_lt h]

theorem binaryDigit_toNat {n : Nat} (x : BitVec n) (p : Nat) : binaryDigit x.toNat p = (x.getLsbD p).toNat := by
  rw [BitVec.getLsbD, Nat.testBit, binaryDigit, Nat.shiftRight_eq_div_pow, Nat.one_and_eq_mod_two]
  rcases Nat.mod_two_eq_zero_or_one (x.toNat / 2 ^ p) with h | h <;> simp [h]

theorem flagDigit_toNat {n : Nat} (x : BitVec n) (p : Nat) : flagDigit x.toNat p = x.getLsbD p := by
  rw [flagDigit, binaryDigit_toNat]
  cases x.getLsbD p <;> rfl

/-- A bit of a nibble is a bit of the number (R123). -/
theorem binaryDigit_hexDigit (v p : Nat) {k : Nat} (hk : k < 4) : binaryDigit (hexDigit v p) k = binaryDigit v (4 * p + k) := by
  have h16 : (16 : Nat) ^ p = 2 ^ (4 * p) := by rw [Nat.pow_mul]
  unfold binaryDigit hexDigit
  rw [h16, Nat.pow_add, ← Nat.div_div_eq_div_mul]
  generalize v / 2 ^ (4 * p) = x
  rcases k with _ | _ | _ | _ | k
  · simp
  · simp only [Nat.zero_add, Nat.pow_one]; omega
  · simp only [Nat.zero_add, Nat.reduceAdd, Nat.reducePow]; omega
  · simp only [Nat.zero_add, Nat.reduceAdd, Nat.reducePow]; omega
  · omega

theorem flagDigit_hexDigit (v p : Nat) {k : Nat} (hk : k < 4) : flagDigit (hexDigit v p) k = flagDigit v (4 * p + k) := by
  simp [flagDigit, binaryDigit_hexDigit v p hk]

/-! ### Reading the buffer -/

theorem State.bufRead_eq_some {s : State} {a : Nat} {b : Byte} :
    s.bufRead a = some b ↔ a < s.len.toNat ∧ Memory.read s.buf a = some b := by
  unfold State.bufRead
  split <;> simp_all

theorem State.readable_iff {s : State} {a n : Nat} :
    s.readable a n = true ↔ ∀ i, i < n → ∃ b, s.bufRead (a + i) = some b := by
  simp [State.readable, List.all_eq_true, Option.isSome_iff_exists]

theorem State.byteAt_of_bufRead {s : State} {a : Nat} {b : Byte} (h : s.bufRead a = some b) : s.byteAt a = b := by
  simp [State.byteAt, h]

theorem State.Holds.bufRead {s : State} {a n : Nat} {b : Nat → Byte} (h : s.Holds a n b) {i : Nat} (hi : i < n) :
    s.bufRead (a + i) = some (b i) :=
  State.bufRead_eq_some.2 ⟨by have := h.1; omega, h.2 i hi⟩

theorem State.Holds.byteAt {s : State} {a n : Nat} {b : Nat → Byte} (h : s.Holds a n b) {i : Nat} (hi : i < n) :
    s.byteAt (a + i) = b i := State.byteAt_of_bufRead (h.bufRead hi)

theorem State.Holds.readable {s : State} {a n : Nat} {b : Nat → Byte} (h : s.Holds a n b) : s.readable a n = true :=
  State.readable_iff.2 fun _ hi => ⟨_, h.bufRead hi⟩

/-- A part of a range that is held is held. -/
theorem State.Holds.part {s : State} {a n : Nat} {b : Nat → Byte} (h : s.Holds a n b) {k m : Nat} (hkm : k + m ≤ n) :
    s.Holds (a + k) m fun i => b (k + i) := by
  refine ⟨by have := h.1; omega, fun i hi => ?_⟩
  rw [Nat.add_assoc]
  exact h.2 (k + i) (by omega)

/-- What the buffer holds is a matter of `BUF` and `LEN` alone. -/
theorem State.holds_congr {s t : State} (hb : t.buf = s.buf) (hl : t.len = s.len) {a n : Nat} {b : Nat → Byte} :
    t.Holds a n b ↔ s.Holds a n b := by rw [State.Holds, State.Holds, hb, hl]

theorem State.showsEth_congr {s t : State} (hb : t.buf = s.buf) (hl : t.len = s.len) {e : EthHeader} :
    t.ShowsEth e ↔ s.ShowsEth e := by simp only [State.ShowsEth, State.holds_congr hb hl]

theorem State.showsIp_congr {s t : State} (hb : t.buf = s.buf) (hl : t.len = s.len) {h : IpHeader} :
    t.ShowsIp h ↔ s.ShowsIp h := by simp only [State.ShowsIp, State.holds_congr hb hl]

theorem State.stopsAt_congr {s t : State} (hb : t.buf = s.buf) (hl : t.len = s.len) {a : Nat} {r : StopReason} :
    t.StopsAt a r ↔ s.StopsAt a r := by simp only [State.StopsAt, State.holds_congr hb hl, hl]

/-- A range that may be read holds the bytes the engine reads there. -/
theorem State.holds_of_readable {s : State} {a n : Nat} (hn : a + n ≤ s.len.toNat) (h : s.readable a n = true) :
    s.Holds a n fun i => s.byteAt (a + i) := by
  refine ⟨hn, fun i hi => ?_⟩
  obtain ⟨b, hb⟩ := State.readable_iff.1 h i hi
  change _ = some (s.byteAt (a + i))
  rw [State.byteAt_of_bufRead hb]
  exact (State.bufRead_eq_some.1 hb).2

/-- A range below `LEN` may be read when every cell below `LEN` is loaded. -/
theorem State.readable_of_loaded {s : State} (hl : ∀ a, a < s.len.toNat → (Memory.read s.buf a).isSome = true) {a n : Nat}
    (h : a + n ≤ s.len.toNat) : s.readable a n = true :=
  State.readable_iff.2 fun i hi => by
    obtain ⟨b, hb⟩ := Option.isSome_iff_exists.1 (hl (a + i) (by omega))
    exact ⟨b, State.bufRead_eq_some.2 ⟨by omega, hb⟩⟩

/-- The buffer is read through `BUF` and `LEN` alone. -/
theorem State.bufRead_congr {s t : State} (hb : t.buf = s.buf) (hl : t.len = s.len) (a : Nat) : t.bufRead a = s.bufRead a := by
  simp [State.bufRead, hb, hl]

theorem State.byteAt_congr {s t : State} (h : ∀ a, t.bufRead a = s.bufRead a) : t.byteAt = s.byteAt := by
  funext a; simp [State.byteAt, h]

theorem State.readable_congr {s t : State} (h : ∀ a, t.bufRead a = s.bufRead a) (a n : Nat) :
    t.readable a n = s.readable a n := by simp [State.readable, h]

theorem State.bytes_congr {s t : State} (h : ∀ a, t.bufRead a = s.bufRead a) (a z : Nat) : t.bytes a z = s.bytes a z := by
  simp [State.bytes, State.byteAt_congr h]

@[simp] theorem State.bytes_length (s : State) (a z : Nat) : (s.bytes a z).length = z - a := by simp [State.bytes]

/-- The bytes of a range that is held. -/
theorem State.Holds.bytes_eq {s : State} {a z : Nat} {b : Nat → Byte} (h : s.Holds a (z - a) b) :
    s.bytes a z = (List.range (z - a)).map b := by
  unfold State.bytes
  exact List.map_congr_left fun i hi => h.byteAt (List.mem_range.1 hi)

/-! ### Checks -/

theorem State.short_iff {s : State} {off n : Nat} : s.short off n = true ↔ s.len.toNat < off + n := by
  unfold State.short State.remaining
  rw [decide_eq_true_eq]
  omega

theorem State.short_false_iff {s : State} {off n : Nat} : s.short off n = false ↔ off + n ≤ s.len.toNat := by
  rw [← Bool.not_eq_true, State.short_iff]; omega

theorem State.rangeLegal_iff {s : State} {a z : Nat} : s.rangeLegal a z = true ↔ a ≤ z ∧ z ≤ s.len.toNat := by
  simp [State.rangeLegal]

theorem toAddr_toNat {a : Nat} (h : a < 2048) : (toAddr a).toNat = a := by
  simp [toAddr, BitVec.toNat_ofNat, Nat.mod_eq_of_lt h]

/-! ### Sequencing -/

/-- What a sequence of inputs does, one input unrolled. -/
theorem performAll_cons (x : HostInput) (xs : List HostInput) (s : State) :
    performAll (x :: xs) s = andThen (performInput x s) (performAll xs) := rfl

@[simp] theorem andThen_next (s : State) (k : State → Result) : andThen (.next s) k = k s := rfl

@[simp] theorem andThen_fault (f : Fault) (k : State → Result) : andThen (.fault f) k = .fault f := rfl

@[simp] theorem andThen_refused (r : Refusal) (k : State → Result) : andThen (.refused r) k = .refused r := rfl

theorem andThen_eq_next {o : Result} {k : State → Result} {t : State} :
    andThen o k = .next t ↔ ∃ u, o = .next u ∧ k u = .next t := by
  cases o <;> simp

/-! ### The dump of a range -/

/-- The emission of a dump: it answers a next state exactly where the range may be read, and then appends the text of its
bytes and changes nothing else. -/
theorem State.dumpRange_next {s t : State} {p : Config.Params} {a z : Nat} (h : s.dumpRange p a z = .next t) :
    s.readable a (z - a) = true ∧ t = s.emitText (hexDump p (s.bytes a z)) := by
  unfold State.dumpRange at h
  split at h
  · next hr => exact ⟨hr, by injection h with h; exact h.symm⟩
  · cases h

theorem State.dumpRange_of_readable {s : State} {p : Config.Params} {a z : Nat} (h : s.readable a (z - a) = true) :
    s.dumpRange p a z = .next (s.emitText (hexDump p (s.bytes a z))) := by
  simp [State.dumpRange, h]

end Sys2Proof.Machine
end

