-- ==== Sys2Proof/Laws/Decoders.lean ====
section
/-! SUPPORT. What the two header decoders return: the header that the bytes are (R80 to R86), and the identities of R32. -/

namespace Sys2Proof.Machine

/-! ### Bytes and their nibbles -/

theorem byte_lt (b : Byte) : b.toNat < 256 := b.isLt

theorem hexDigit_one_byte (b : Byte) : hexDigit b.toNat 1 = b.toNat / 16 := by
  rw [hexDigit_one]; have := byte_lt b; omega

theorem readPair_lt (rd : Nat → Byte) (a : Nat) : readPair rd a < 65536 := by
  unfold readPair; have := byte_lt (rd a); have := byte_lt (rd (a + 1)); omega

theorem ipHlenAt_eq (rd : Nat → Byte) (off : Nat) : ipHlenAt rd off = 4 * ((rd off).toNat % 16) := by
  simp [ipHlenAt]

theorem ipHlenAt_lt (rd : Nat → Byte) (off : Nat) : ipHlenAt rd off < 64 := by
  rw [ipHlenAt_eq]; omega

theorem ipTlenAt_lt (rd : Nat → Byte) (off : Nat) : ipTlenAt rd off < 65536 := readPair_lt rd _

/-! ### The Ethernet header -/

/-- The E group the decoder returns is the header the fourteen bytes are. -/
theorem ethHeaderAt_spec {s : State} {a : Nat} {b : Nat → Byte} (h : s.Holds a 14 b) :
    EthHeaderOf b (ethHeaderAt s.byteAt a) := by
  have hb : ∀ i, i < 14 → s.byteAt (a + i) = b i := fun i hi => h.byteAt hi
  have h0 : s.byteAt a = b 0 := hb 0 (by decide)
  simp only [EthHeaderOf, ethHeaderAt, readMac, Nat.add_assoc, Nat.reduceAdd, h0, hb _ (show 1 < 14 by decide),
    hb _ (show 2 < 14 by decide), hb _ (show 3 < 14 by decide), hb _ (show 4 < 14 by decide),
    hb _ (show 5 < 14 by decide), hb _ (show 6 < 14 by decide), hb _ (show 7 < 14 by decide),
    hb _ (show 8 < 14 by decide), hb _ (show 9 < 14 by decide), hb _ (show 10 < 14 by decide),
    hb _ (show 11 < 14 by decide), hb _ (show 12 < 14 by decide), hb _ (show 13 < 14 by decide), classifyEther,
    and_self]

/-- The E group the decoder returns is a header the buffer holds. -/
theorem ethHeaderAt_shows {s : State} {a : Nat} {b : Nat → Byte} (h : s.Holds a 14 b) :
    s.ShowsEth (ethHeaderAt s.byteAt a) := ⟨a, b, h, ethHeaderAt_spec h⟩

/-- Fourteen bytes are one header. -/
theorem EthHeaderOf.unique {b : Nat → Byte} {e e' : EthHeader} (h : EthHeaderOf b e) (h' : EthHeaderOf b e') : e = e' := by
  obtain ⟨h1, h2, h3, h4, h5⟩ := h
  obtain ⟨k1, k2, k3, k4, k5⟩ := h'
  cases e; cases e'
  simp_all

theorem ethHeaderAt_consistent (rd : Nat → Byte) (a : Nat) : (ethHeaderAt rd a).Consistent := rfl

/-! ### The type of service and the fragment word -/

theorem two_flags_toNat (x y : Bool) : (BitVec.ofBool x ++ BitVec.ofBool y).toNat = 2 * x.toNat + y.toNat := by
  cases x <;> cases y <;> rfl

theorem getLsbD_toNat_eq {n : Nat} (x : BitVec n) (i : Nat) : (x.getLsbD i).toNat = x.toNat / 2 ^ i % 2 :=
  (binaryDigit_toNat x i).symm

/-- The type-of-service bits as R84 places them, for any assignment of the open bits. -/
theorem decodeTos_spec (m : Config.TosMap) (t : Byte) :
    (decodeTos m t).prec = t.extractLsb' 1 3 ∧ (decodeTos m t).reli = t.getLsbD 0
    ∧ (decodeTos m t).thru = t.getLsbD (4 + m.thruBit) ∧ (decodeTos m t).delay = t.getLsbD (4 + m.delayBit)
    ∧ (decodeTos m t).trsv = BitVec.ofBool (t.getLsbD 7) ++ BitVec.ofBool (t.getLsbD (4 + m.rsvBit)) := by
  have ht : m.thruBit < 4 := by cases m <;> decide
  have hd : m.delayBit < 4 := by cases m <;> decide
  have hr : m.rsvBit < 4 := by cases m <;> decide
  refine ⟨?_, ?_, ?_, ?_, ?_⟩
  · apply BitVec.eq_of_toNat_eq
    simp only [decodeTos, binaryDigit_hexDigit _ _ (show 1 < 4 by decide), binaryDigit_hexDigit _ _ (show 2 < 4 by decide),
      binaryDigit_hexDigit _ _ (show 3 < 4 by decide), BitVec.toNat_ofNat, BitVec.extractLsb'_toNat,
      Nat.shiftRight_eq_div_pow]
    have := byte_lt t
    simp only [binaryDigit, Nat.mul_zero, Nat.zero_add, Nat.reducePow]
    omega
  · simp only [decodeTos, flagDigit_hexDigit _ _ (show 0 < 4 by decide), flagDigit_toNat, Nat.mul_zero, Nat.zero_add]
  · simp only [decodeTos, flagDigit_hexDigit _ _ ht, flagDigit_toNat, Nat.mul_one]
  · simp only [decodeTos, flagDigit_hexDigit _ _ hd, flagDigit_toNat, Nat.mul_one]
  · simp only [decodeTos, binaryDigit_hexDigit _ _ hr, binaryDigit_hexDigit _ _ (show 3 < 4 by decide), Nat.mul_one,
      binaryDigit_toNat, Nat.reduceAdd]
    cases t.getLsbD 7 <;> cases t.getLsbD (4 + m.rsvBit) <;> rfl

/-- The fragment word's fields as R85 places them. -/
theorem decodeFrag_spec (f0 f1 : Byte) :
    (decodeFrag f0 f1).frsv = f0.getLsbD 7 ∧ (decodeFrag f0 f1).df = f0.getLsbD 6 ∧ (decodeFrag f0 f1).mf = f0.getLsbD 5
    ∧ (decodeFrag f0 f1).foff.toNat = 256 * (f0.toNat % 32) + f1.toNat := by
  refine ⟨?_, ?_, ?_, ?_⟩
  · simp only [decodeFrag, flagDigit_hexDigit _ _ (show 3 < 4 by decide), flagDigit_toNat, Nat.mul_one, Nat.reduceAdd]
  · simp only [decodeFrag, flagDigit_hexDigit _ _ (show 2 < 4 by decide), flagDigit_toNat, Nat.mul_one, Nat.reduceAdd]
  · simp only [decodeFrag, flagDigit_hexDigit _ _ (show 1 < 4 by decide), flagDigit_toNat, Nat.mul_one, Nat.reduceAdd]
  · have h0 := byte_lt f0
    have h1 := byte_lt f1
    simp only [decodeFrag, binaryDigit_hexDigit _ _ (show 0 < 4 by decide), hexDigit_zero, BitVec.toNat_ofNat]
    simp only [binaryDigit, Nat.mul_one, Nat.add_zero, Nat.reducePow]
    omega

/-! ### The IPv4 header -/

/-- The decode of R142 in its three cases (R152, R153, R154). -/
theorem decodeIpAt_cases (m : Config.TosMap) (rd : Nat → Byte) (off : Nat) :
    (ipHlenAt rd off < 20 ∧ decodeIpAt m rd off = .error .invalidHeaderLength)
    ∨ (20 ≤ ipHlenAt rd off ∧ ipTlenAt rd off < ipHlenAt rd off ∧ decodeIpAt m rd off = .error .invalidTotalLength)
    ∨ (20 ≤ ipHlenAt rd off ∧ ipHlenAt rd off ≤ ipTlenAt rd off ∧ decodeIpAt m rd off = .ok (ipHeaderAt m rd off)) := by
  unfold decodeIpAt Config.ipMin
  split
  · next h => exact .inl ⟨h, rfl⟩
  · next h =>
    split
    · next h' => exact .inr (.inl ⟨by omega, h', rfl⟩)
    · next h' => exact .inr (.inr ⟨by omega, by omega, rfl⟩)

/-- The numbers the I group holds, none of them narrowed by its register. -/
theorem ipHeaderAt_numbers (m : Config.TosMap) (rd : Nat → Byte) (off : Nat) :
    (ipHeaderAt m rd off).ver.toNat = (rd off).toNat / 16 ∧ (ipHeaderAt m rd off).ihl.toNat = (rd off).toNat % 16
    ∧ (ipHeaderAt m rd off).hlen.toNat = ipHlenAt rd off ∧ (ipHeaderAt m rd off).tlen.toNat = ipTlenAt rd off
    ∧ (ipHeaderAt m rd off).epsize.toNat = ipTlenAt rd off + 14
    ∧ (ipHeaderAt m rd off).ident.toNat = readPair rd (off + 4) := by
  have h0 := byte_lt (rd off)
  have h1 := ipHlenAt_lt rd off
  have h2 := ipTlenAt_lt rd off
  have h3 := readPair_lt rd (off + 4)
  refine ⟨?_, ?_, ?_, ?_, ?_, ?_⟩ <;>
    simp only [ipHeaderAt, hexDigit_one_byte, hexDigit_zero, BitVec.toNat_ofNat] <;> omega

/-- The cursor positions the I group holds, for a header address below 2048. -/
theorem ipHeaderAt_ends (m : Config.TosMap) (rd : Nat → Byte) {off : Nat} (h : off < 2048) :
    (ipHeaderAt m rd off).hend.toNat = off + ipHlenAt rd off ∧ (ipHeaderAt m rd off).pend.toNat = off + ipTlenAt rd off := by
  have h1 := ipHlenAt_lt rd off
  have h2 := ipTlenAt_lt rd off
  constructor <;> simp only [ipHeaderAt, BitVec.toNat_ofNat] <;> omega

/-- The I group the decoder returns is the header the twenty bytes are. -/
theorem ipHeaderAt_spec {s : State} {off : Nat} {b : Nat → Byte} (h : s.Holds off 20 b) :
    IpHeaderOf b off (ipHeaderAt .thruDelayRsv s.byteAt off) := by
  have hb : ∀ i, i < 20 → s.byteAt (off + i) = b i := fun i hi => h.byteAt hi
  have h0 : s.byteAt off = b 0 := hb 0 (by decide)
  have hoff : off < 2048 := by have := h.1; have := s.len.isLt; omega
  obtain ⟨n1, n2, n3, n4, n5, n6⟩ := ipHeaderAt_numbers .thruDelayRsv s.byteAt off
  obtain ⟨e1, e2⟩ := ipHeaderAt_ends .thruDelayRsv s.byteAt hoff
  obtain ⟨t1, t2, t3, t4, t5⟩ := decodeTos_spec .thruDelayRsv (s.byteAt (off + 1))
  obtain ⟨f1, f2, f3, f4⟩ := decodeFrag_spec (s.byteAt (off + 6)) (s.byteAt (off + 7))
  have hh : ipHlenAt s.byteAt off = hlenOf b := by rw [ipHlenAt_eq, h0, hlenOf]
  have ht : ipTlenAt s.byteAt off = tlenOf b := by
    simp only [ipTlenAt, readPair, Nat.add_assoc, Nat.reduceAdd, hb _ (show 2 < 20 by decide), hb _ (show 3 < 20 by decide),
      tlenOf]
  have hm : readPair s.byteAt (off + 4) = 256 * (b 4).toNat + (b 5).toNat := by
    simp only [readPair, Nat.add_assoc, Nat.reduceAdd, hb _ (show 4 < 20 by decide), hb _ (show 5 < 20 by decide)]
  rw [h0] at n1 n2
  rw [hh] at n3 e1
  rw [ht] at n4 n5 e2
  rw [hm] at n6
  rw [hb 1 (by decide)] at t1 t2 t3 t4 t5
  rw [hb 6 (by decide), hb 7 (by decide)] at f1 f2 f3 f4
  have t5' : (decodeTos .thruDelayRsv (b 1)).trsv = (b 1).extractLsb' 6 2 := by
    apply BitVec.eq_of_toNat_eq
    rw [t5, two_flags_toNat, getLsbD_toNat_eq, getLsbD_toNat_eq, BitVec.extractLsb'_toNat, Nat.shiftRight_eq_div_pow]
    simp only [Config.TosMap.rsvBit, Nat.reduceAdd, Nat.reducePow]
    omega
  refine ⟨n1, n2, n3, hb 1 (by decide), ?_, ?_, ?_, ?_, ?_, n4, n5, n6, ?_, ?_, ?_, ?_, hb 8 (by decide), hb 9 (by decide),
    ?_, hb 10 (by decide), hb 11 (by decide), ?_, ?_, ?_, e1, e2⟩
  · simpa only [ipHeaderAt, hb 1 (by decide)] using t5'
  · simpa only [ipHeaderAt, hb 1 (by decide), Config.TosMap.delayBit] using t4
  · simpa only [ipHeaderAt, hb 1 (by decide), Config.TosMap.thruBit] using t3
  · simpa only [ipHeaderAt, hb 1 (by decide)] using t1
  · simpa only [ipHeaderAt, hb 1 (by decide)] using t2
  · simpa only [ipHeaderAt, hb 6 (by decide), hb 7 (by decide)] using f1
  · simpa only [ipHeaderAt, hb 6 (by decide), hb 7 (by decide)] using f2
  · simpa only [ipHeaderAt, hb 6 (by decide), hb 7 (by decide)] using f3
  · simpa only [ipHeaderAt, hb 6 (by decide), hb 7 (by decide)] using f4
  · simp only [ipHeaderAt, hb 9 (by decide), classifyProto, Config.protoTcp, Config.protoUdp]
  · simp only [ipHeaderAt, readIpAddr, Nat.add_assoc, Nat.reduceAdd, hb _ (show 12 < 20 by decide),
      hb _ (show 13 < 20 by decide), hb _ (show 14 < 20 by decide), hb _ (show 15 < 20 by decide)]
  · simp only [ipHeaderAt, readIpAddr, Nat.add_assoc, Nat.reduceAdd, hb _ (show 16 < 20 by decide),
      hb _ (show 17 < 20 by decide), hb _ (show 18 < 20 by decide), hb _ (show 19 < 20 by decide)]
  · simp only [ipHeaderAt, hh, Config.ipMin]

/-- The flags and the fragment offset of a header put its two bytes together again (the last identity of R32). -/
theorem IpHeaderOf.fragWord {b : Nat → Byte} {off : Nat} {h : IpHeader} (hh : IpHeaderOf b off h) :
    256 * (b 6).toNat + (b 7).toNat
      = 32768 * h.frsv.toNat + 16384 * h.df.toNat + 8192 * h.mf.toNat + h.foff.toNat := by
  obtain ⟨-, -, -, -, -, -, -, -, -, -, -, -, f1, f2, f3, f4, -⟩ := hh
  have h6 := byte_lt (b 6)
  rw [f1, f2, f3, f4]
  simp only [getLsbD_toNat_eq, Nat.reducePow]
  omega

/-- The I group the decoder returns is a header the buffer holds. -/
theorem ipHeaderAt_shows {s : State} {off : Nat} {b : Nat → Byte} (h : s.Holds off 20 b) :
    s.ShowsIp (ipHeaderAt params.tosMap s.byteAt off) :=
  ⟨off, b, h, ipHeaderAt_spec h, (ipHeaderAt_spec h).fragWord⟩

/-- The identities of R32 hold of every header the decode lets through. -/
theorem ipHeaderAt_consistent (m : Config.TosMap) (rd : Nat → Byte) (off : Nat) (h20 : 20 ≤ ipHlenAt rd off)
    (hle : ipHlenAt rd off ≤ ipTlenAt rd off) : (ipHeaderAt m rd off).toIpFields.Consistent m := by
  obtain ⟨-, n2, n3, n4, n5, -⟩ := ipHeaderAt_numbers m rd off
  obtain ⟨t1, t2, t3, t4, t5⟩ := decodeTos_spec m (rd (off + 1))
  have hh := ipHlenAt_eq rd off
  refine ⟨by rw [n3, n2, hh], by rw [n3]; exact h20, by rw [n3, n4]; exact hle, by rw [n5, n4], ?_, ?_, rfl⟩
  · rw [n2]
    simp only [ipHeaderAt, Config.ipMin, decide_eq_true_eq, hh]
    omega
  · change (rd (off + 1)).toNat = 128 * ((decodeTos m (rd (off + 1))).trsv.toNat / 2)
      + 2 ^ (4 + m.rsvBit) * ((decodeTos m (rd (off + 1))).trsv.toNat % 2)
      + 2 ^ (4 + m.delayBit) * (decodeTos m (rd (off + 1))).delay.toNat
      + 2 ^ (4 + m.thruBit) * (decodeTos m (rd (off + 1))).thru.toNat
      + 2 * (decodeTos m (rd (off + 1))).prec.toNat + (decodeTos m (rd (off + 1))).reli.toNat
    rw [t1, t2, t3, t4, t5]
    generalize rd (off + 1) = t
    have ht := byte_lt t
    have hp : (t.extractLsb' 1 3).toNat = t.toNat / 2 % 8 := by
      simp [BitVec.extractLsb'_toNat, Nat.shiftRight_eq_div_pow]
    rw [two_flags_toNat, hp]
    simp only [getLsbD_toNat_eq]
    cases m <;> simp only [Config.TosMap.rsvBit, Config.TosMap.delayBit, Config.TosMap.thruBit, Nat.reduceAdd,
      Nat.reducePow] <;> omega

end Sys2Proof.Machine
end

