-- ==== Sys2Proof/Laws/HexDump.lean ====
section
/-! SUPPORT. The shape of a hex dump: the lengths of its parts, its rows, and which codes it holds (R193, R195, R200). -/

namespace Sys2Proof.Machine

@[simp] theorem hex2_length (v : Nat) : (hex2 v).length = 2 := rfl

@[simp] theorem hex4_length (v : Nat) : (hex4 v).length = 4 := rfl

@[simp] theorem hexCell_length (row : List Byte) (j : Nat) : (hexCell row j).length = 2 := by
  unfold hexCell; split <;> rfl

theorem hexCell_some {row : List Byte} {j : Nat} {b : Byte} (h : row[j]? = some b) : hexCell row j = hex2 b.toNat := by
  simp [hexCell, h]

theorem hexCell_none {row : List Byte} {j : Nat} (h : row[j]? = none) : hexCell row j = [spaceCode, spaceCode] := by
  simp [hexCell, h]

/-- The hex area written out: sixteen cells, a space between neighbours. -/
theorem hexArea_eq (row : List Byte) :
    hexArea row = hexCell row 0 ++ [spaceCode] ++ hexCell row 1 ++ [spaceCode] ++ hexCell row 2 ++ [spaceCode]
      ++ hexCell row 3 ++ [spaceCode] ++ hexCell row 4 ++ [spaceCode] ++ hexCell row 5 ++ [spaceCode]
      ++ hexCell row 6 ++ [spaceCode] ++ hexCell row 7 ++ [spaceCode] ++ hexCell row 8 ++ [spaceCode]
      ++ hexCell row 9 ++ [spaceCode] ++ hexCell row 10 ++ [spaceCode] ++ hexCell row 11 ++ [spaceCode]
      ++ hexCell row 12 ++ [spaceCode] ++ hexCell row 13 ++ [spaceCode] ++ hexCell row 14 ++ [spaceCode]
      ++ hexCell row 15 := by
  simp [hexArea, Config.rowOctets, show List.range 16 = [0, 1, 2, 3, 4, 5, 6, 7, 8, 9, 10, 11, 12, 13, 14, 15] from rfl]

/-- The hex area is always 47 characters wide (R195). -/
@[simp] theorem hexArea_length (row : List Byte) : (hexArea row).length = 47 := by simp [hexArea_eq]

/-- A row of `k` bytes has `52 + HD_GAP + k` characters and then `EOL` (R193). -/
theorem hexRow_length (p : Config.Params) (base : Nat) (row : List Byte) :
    (hexRow p base row).length = 52 + p.hdGap + row.length + p.eol.length := by
  simp [hexRow]; omega

theorem rowBytes_length (b : List Byte) (base : Nat) : (rowBytes b base).length = min 16 (b.length - base) := by
  simp [rowBytes, Config.rowOctets]

theorem rowCount_eq (n : Nat) : rowCount n = (n + 15) / 16 := rfl

@[simp] theorem hexDump_nil (p : Config.Params) : hexDump p [] = [] := rfl

/-- A digit's code is a digit or a letter of R110. -/
theorem hexChar_cases {n : Nat} (h : n < 16) :
    (n ≤ 9 ∧ (hexChar n).toNat = 0x30 + n) ∨ (10 ≤ n ∧ (hexChar n).toNat = 0x61 + (n - 10)) := by
  unfold hexChar
  split
  · next hn => exact .inl ⟨hn, by rw [BitVec.toNat_ofNat]; omega⟩
  · next hn => exact .inr ⟨by omega, by rw [BitVec.toNat_ofNat]; omega⟩

/-- A digit's code is read back as the digit (R199). -/
theorem hexVal_hexChar {n : Nat} (h : n < 16) : hexVal (hexChar n) = n := by
  unfold hexVal
  rcases hexChar_cases h with ⟨_, hc⟩ | ⟨_, hc⟩
  · rw [if_pos (by omega)]; omega
  · rw [if_neg (by omega), if_pos (by omega)]; omega

theorem hexChar_printable {n : Nat} (h : n < 16) : Config.printLo ≤ (hexChar n).toNat ∧ (hexChar n).toNat ≤ Config.printHi := by
  unfold Config.printLo Config.printHi
  rcases hexChar_cases h with ⟨_, hc⟩ | ⟨_, hc⟩ <;> omega

theorem asciiOf_printable (v : Byte) : Config.printLo ≤ (asciiOf v).toNat ∧ (asciiOf v).toNat ≤ Config.printHi := by
  unfold asciiOf
  split
  · assumption
  · decide

/-- Every code of a row is one of R110. -/
theorem hexRow_textCode {p : Config.Params} {base : Nat} {row : List Byte} {c : Byte} (h : c ∈ hexRow p base row) :
    TextCode p c := by
  have digit : ∀ v k, TextCode p (hexChar (hexDigit v k)) := fun v k => .inr (.inl (hexChar_printable (hexDigit_lt v k)))
  have cell : ∀ j x, x ∈ hexCell row j → TextCode p x := by
    intro j x hx
    unfold hexCell at hx
    split at hx
    · simp only [hex2, List.mem_cons, List.not_mem_nil, or_false] at hx
      rcases hx with rfl | rfl <;> exact digit _ _
    · simp only [List.mem_cons, List.not_mem_nil, or_false, or_self] at hx
      exact .inl hx
  simp only [hexRow, List.mem_append, List.mem_map, List.mem_replicate] at h
  rcases h with ((((h | h) | h) | h) | h) | h
  · simp only [hex4, List.mem_cons, List.not_mem_nil, or_false] at h
    rcases h with rfl | rfl | rfl | rfl <;> exact digit _ _
  · exact .inl (List.mem_singleton.1 h)
  · simp only [hexArea, List.mem_flatMap, List.mem_append] at h
    obtain ⟨j, _, h | h⟩ := h
    · exact cell j c h
    · split at h
      · exact .inl (List.mem_singleton.1 h)
      · cases h
  · exact .inl h.2
  · obtain ⟨v, _, rfl⟩ := h
    exact .inr (.inl (asciiOf_printable v))
  · exact .inr (.inr h)

/-- Every code of a dump is one of R110. -/
theorem hexDump_textCode {p : Config.Params} {b : List Byte} {c : Byte} (h : c ∈ hexDump p b) : TextCode p c := by
  simp only [hexDump, List.mem_flatMap] at h
  obtain ⟨_, _, h⟩ := h
  exact hexRow_textCode h

/-- The dump of a sequence is the row of its first sixteen bytes and then the later rows, whose offsets go on (R192, R196). -/
theorem hexDump_rows (p : Config.Params) (b : List Byte) :
    hexDump p b = (List.range ((b.length + 15) / 16)).flatMap fun r => hexRow p (16 * r) ((b.drop (16 * r)).take 16) := rfl

end Sys2Proof.Machine
end

