-- ==== Sys2Proof/Laws/PerInstr.lean ====
section
/-! SUPPORT. Statements made per instruction, one lemma for each constructor of `Instr`. -/

namespace Sys2Proof.Laws.EncodeLegal

/-- The number of the operation in the opcode table: its place among the command words, or the level of `bfx_sel`. -/
def place : Instr → Nat
  | .hexdigit _ _ => 0
  | .bindigit _ _ => 1
  | .nop => 0
  | .clr => 1
  | .push _ => 2
  | .eth _ => 3
  | .ip4 _ => 4
  | .next => 5
  | .run => 6
  | .dump _ _ => 7

/-- The encoding of a well-formed instruction is admitted by the instruction's own row of the opcode table (R95): a command
word has the fixed bits of its row, and a bit-field operation stands on the bit-field port with its own `bfx_sel` (R98). -/
def Statement (i : Instr) : Prop :=
  i.wellFormed = true →
    match encode i with
    | .command w => ∃ r, opTable[place i]? = some r ∧ r.admits w = true
    | .bitField sel _ _ => place i = sel.toNat

/-- A command word is its four fields, the most significant first (R90). -/
theorem commandWord_bits {op a b : Nat} (ha : a < 2 ^ 11) (hb : b < 2 ^ 11) :
    commandWord op a b = BitVec.ofNat 4 op ++ 0#6 ++ BitVec.ofNat 11 a ++ BitVec.ofNat 11 b := by
  apply BitVec.eq_of_toNat_eq
  simp only [commandWord, BitVec.toNat_ofNat, BitVec.toNat_append]
  rw [← Nat.shiftLeft_add_eq_or_of_lt (by omega), ← Nat.shiftLeft_add_eq_or_of_lt (by omega),
    ← Nat.shiftLeft_add_eq_or_of_lt (by omega)]
  simp only [Nat.shiftLeft_eq]
  omega

/-- The rows of ETH and IP4 admit their words whatever the first argument is (R91). -/
theorem admits_firstArgument {op : Nat} {r : OpRow}
    (h : op = 3 ∧ r = ⟨0xFFC007FF#32, 0x30000000#32⟩ ∨ op = 4 ∧ r = ⟨0xFFC007FF#32, 0x40000000#32⟩) {a : Nat}
    (ha : a < 2 ^ 11) : r.admits (commandWord op a 0) = true := by
  rw [OpRow.admits, commandWord_bits ha (by omega), beq_iff_eq]
  generalize BitVec.ofNat 11 a = x
  rcases h with ⟨rfl, rfl⟩ | ⟨rfl, rfl⟩ <;>
    (ext k hk
     simp only [BitVec.getElem_and, BitVec.getElem_append]
     interval_cases k <;> simp)

theorem hexdigit (value pos : Nat) : Statement (.hexdigit value pos) := fun _ => rfl

theorem bindigit (value pos : Nat) : Statement (.bindigit value pos) := fun _ => rfl

theorem nop : Statement .nop := fun _ => ⟨_, rfl, by decide⟩

theorem clr : Statement .clr := fun _ => ⟨_, rfl, by decide⟩

theorem push (d : Nat) : Statement (.push d) := by
  intro h
  have hd : d < 2 ^ 8 := by simpa [Instr.wellFormed] using h
  refine ⟨_, rfl, ?_⟩
  interval_cases d <;> decide

theorem eth (off : Nat) : Statement (.eth off) := fun h =>
  ⟨_, rfl, admits_firstArgument (by decide) (by simpa [Instr.wellFormed] using h)⟩

theorem ip4 (off : Nat) : Statement (.ip4 off) := fun h =>
  ⟨_, rfl, admits_firstArgument (by decide) (by simpa [Instr.wellFormed] using h)⟩

theorem next : Statement .next := fun _ => ⟨_, rfl, by decide⟩

theorem run : Statement .run := fun _ => ⟨_, rfl, by decide⟩

theorem dump (first last : Nat) : Statement (.dump first last) := by
  intro h
  simp only [Instr.wellFormed, Bool.and_eq_true, decide_eq_true_eq] at h
  refine ⟨_, rfl, ?_⟩
  show (commandWord 7 first last &&& 0xFFC00000#32 == 0x70000000#32) = true
  rw [commandWord_bits h.1 h.2, beq_iff_eq]
  generalize BitVec.ofNat 11 first = x
  generalize BitVec.ofNat 11 last = y
  ext k hk
  simp only [BitVec.getElem_and, BitVec.getElem_append]
  interval_cases k <;> simp

end Sys2Proof.Laws.EncodeLegal
end

