-- ==== Sys2Proof/Laws/Splitter.lean ====
section
/-! SUPPORT. What one iteration of the splitter can do, what the loop of RUN can do, and one induction over that loop. -/

namespace Sys2Proof.Machine

/-- Everything an iteration that answers a next state can do (R170). -/
inductive SplitCase (p : Config.Params) (s t : State) : Prop where
  | again (r : StopReason) (hstop : s.stopReason = some r) (ht : t = s.setCode r.code)
  | short (hstop : s.stopReason = none) (hlen : s.len.toNat < s.cur.toNat + 34) (ht : t = s.stopWith s.shortStop)
  | badHeader (hstop : s.stopReason = none) (hlen : s.cur.toNat + 34 ≤ s.len.toNat)
      (hr : s.readable s.cur.toNat 34 = true) (c : IpCondition)
      (hd : decodeIpAt p.tosMap s.byteAt (s.cur.toNat + 14) = .error c) (ht : t = s.stopWith c.stop)
  | incomplete (hstop : s.stopReason = none) (hlen : s.cur.toNat + 34 ≤ s.len.toNat)
      (hr : s.readable s.cur.toNat 34 = true)
      (h20 : 20 ≤ ipHlenAt s.byteAt (s.cur.toNat + 14))
      (hle : ipHlenAt s.byteAt (s.cur.toNat + 14) ≤ ipTlenAt s.byteAt (s.cur.toNat + 14))
      (hend : s.len.toNat < s.cur.toNat + 14 + ipTlenAt s.byteAt (s.cur.toNat + 14))
      (ht : t = s.stopWith .incompleteFrame)
  | frame (hstop : s.stopReason = none) (hlen : s.cur.toNat + 34 ≤ s.len.toNat)
      (hr : s.readable s.cur.toNat 34 = true)
      (h20 : 20 ≤ ipHlenAt s.byteAt (s.cur.toNat + 14))
      (hle : ipHlenAt s.byteAt (s.cur.toNat + 14) ≤ ipTlenAt s.byteAt (s.cur.toNat + 14))
      (hend : s.cur.toNat + 14 + ipTlenAt s.byteAt (s.cur.toNat + 14) ≤ s.len.toNat)
      (ht : t = s.emitFrame (ethHeaderAt s.byteAt s.cur.toNat) (ipHeaderAt p.tosMap s.byteAt (s.cur.toNat + 14))
        (s.cur.toNat + 14 + ipTlenAt s.byteAt (s.cur.toNat + 14)))

/-- The iteration of a stopped splitter. -/
theorem splitOnce_stopped {p : Config.Params} {s : State} {r : StopReason} (h : s.stopReason = some r) :
    splitOnce p s = .next (s.setCode r.code) := by simp [splitOnce, h]

/-- The iteration of an unstopped splitter with fewer than 34 bytes left. -/
theorem splitOnce_short {p : Config.Params} {s : State} (h : s.stopReason = none) (hl : s.len.toNat < s.cur.toNat + 34) :
    splitOnce p s = .next (s.stopWith s.shortStop) := by
  simp [splitOnce, h, Config.minFrame, State.short_iff.2 hl]

/-- The iteration of an unstopped splitter with at least 34 readable bytes left, by the outcome of its decode. -/
theorem splitOnce_decode {p : Config.Params} {s : State} (h : s.stopReason = none)
    (hl : s.cur.toNat + 34 ≤ s.len.toNat) (hr : s.readable s.cur.toNat 34 = true) :
    splitOnce p s = match decodeIpAt p.tosMap s.byteAt (s.cur.toNat + 14) with
      | .error c => .next (s.stopWith c.stop)
      | .ok ih =>
        if s.len.toNat < s.cur.toNat + 14 + ih.tlen.toNat then .next (s.stopWith .incompleteFrame)
        else .next (s.emitFrame (ethHeaderAt s.byteAt s.cur.toNat) ih (s.cur.toNat + 14 + ih.tlen.toNat)) := by
  simp only [splitOnce, h, Config.minFrame, Config.ethLen, State.short_false_iff.2 hl, hr, if_true, Bool.false_eq_true,
    if_false]
  rfl

/-- An iteration faults only where the 34 bytes cannot be read. -/
theorem splitOnce_next {p : Config.Params} {s : State}
    (hr : s.stopReason = none → s.cur.toNat + 34 ≤ s.len.toNat → s.readable s.cur.toNat 34 = true) :
    ∃ t, splitOnce p s = .next t := by
  rcases hs : s.stopReason with _ | r
  · by_cases hl : s.len.toNat < s.cur.toNat + 34
    · exact ⟨_, splitOnce_short hs hl⟩
    · rw [splitOnce_decode hs (by omega) (hr hs (by omega))]
      split
      · exact ⟨_, rfl⟩
      · split <;> exact ⟨_, rfl⟩
  · exact ⟨_, splitOnce_stopped hs⟩

/-- An iteration that answers a next state does one of the five things R170 lists. -/
theorem splitOnce_cases {p : Config.Params} {s t : State} (h : splitOnce p s = .next t) : SplitCase p s t := by
  rcases hs : s.stopReason with _ | r
  · by_cases hl : s.len.toNat < s.cur.toNat + 34
    · rw [splitOnce_short hs hl] at h
      injection h with h
      exact .short hs hl h.symm
    · have hl' : s.cur.toNat + 34 ≤ s.len.toNat := by omega
      by_cases hr : s.readable s.cur.toNat 34 = true
      · rw [splitOnce_decode hs hl' hr] at h
        have htl := (ipHeaderAt_numbers p.tosMap s.byteAt (s.cur.toNat + 14)).2.2.2.1
        rcases decodeIpAt_cases p.tosMap s.byteAt (s.cur.toNat + 14) with ⟨_, hd⟩ | ⟨_, _, hd⟩ | ⟨h20, hle, hd⟩
        · rw [hd] at h
          injection h with h
          exact .badHeader hs hl' hr _ hd h.symm
        · rw [hd] at h
          injection h with h
          exact .badHeader hs hl' hr _ hd h.symm
        · rw [hd] at h
          simp only [htl] at h
          split at h
          · next hend =>
            injection h with h
            exact .incomplete hs hl' hr h20 hle hend h.symm
          · next hend =>
            injection h with h
            exact .frame hs hl' hr h20 hle (by omega) h.symm
      · exfalso
        simp [splitOnce, hs, Config.minFrame, State.short_false_iff.2 hl', hr] at h
  · rw [splitOnce_stopped hs] at h
    injection h with h
    exact .again r hs h.symm

/-- The two lengths the decode reads in a frame are those its bytes declare. -/
theorem State.Holds.ipLengths {s : State} {a : Nat} {b : Nat → Byte} (h : s.Holds a 34 b) :
    ipHlenAt s.byteAt (a + 14) = hlenOf (ipPart b) ∧ ipTlenAt s.byteAt (a + 14) = tlenOf (ipPart b) := by
  have h' := h.part (k := 14) (m := 20) (by decide)
  constructor
  · rw [ipHlenAt_eq, hlenOf, ipPart, ← h'.byteAt (show 0 < 20 by decide)]
  · have h2 := h'.byteAt (show 2 < 20 by decide)
    have h3 := h'.byteAt (show 3 < 20 by decide)
    simp only [ipTlenAt, readPair, tlenOf, ipPart, ← h2, ← h3]

/-- The reason R173 gives for a stop before any decode is true. -/
theorem State.stopsAt_short {s : State} (hl : s.len.toNat < s.cur.toNat + 34) : s.StopsAt s.cur.toNat s.shortStop := by
  refine .inl ⟨hl, ?_⟩
  have hz : s.cur ≠ 0#11 ↔ s.cur.toNat ≠ 0 := by rw [ne_eq, ← BitVec.toNat_inj]; rfl
  exact if_congr (by rw [hz, State.remaining]; omega) rfl rfl

/-- An iteration of an unstopped splitter emits the frame, or stops with a reason that is true of the buffer. -/
theorem splitOnce_stop_or_frame {p : Config.Params} {s t : State} (hs : s.stopReason = none)
    (h : splitOnce p s = .next t) :
    (∃ r, s.StopsAt s.cur.toNat r ∧ t = s.stopWith r)
    ∨ ∃ b, s.FrameBytes s.cur.toNat b
        ∧ t = s.emitFrame (ethHeaderAt s.byteAt s.cur.toNat) (ipHeaderAt p.tosMap s.byteAt (s.cur.toNat + 14))
          (s.cur.toNat + 14 + tlenOf (ipPart b)) := by
  rcases splitOnce_cases h with ⟨r, hr, -⟩ | ⟨-, hl, rfl⟩ | ⟨-, hl, hrd, c, hd, rfl⟩ | ⟨-, hl, hrd, h20, hle, hend, rfl⟩
    | ⟨-, hl, hrd, h20, hle, hend, rfl⟩
  · rw [hs] at hr; cases hr
  · exact .inl ⟨_, State.stopsAt_short hl, rfl⟩
  all_goals
    have hb := State.holds_of_readable hl hrd
    obtain ⟨e1, e2⟩ := hb.ipLengths
  · refine .inl ⟨_, .inr ⟨_, hb, ?_⟩, rfl⟩
    rw [← e1, ← e2]
    rcases decodeIpAt_cases p.tosMap s.byteAt (s.cur.toNat + 14) with ⟨g1, g⟩ | ⟨g1, g2, g⟩ | ⟨g1, g2, g⟩ <;> rw [hd] at g
    · cases g; exact .inl ⟨g1, rfl⟩
    · cases g; exact .inr (.inl ⟨g1, g2, rfl⟩)
    · cases g
  · rw [e1] at h20 hle
    rw [e2] at hle hend
    exact .inl ⟨_, .inr ⟨_, hb, .inr (.inr ⟨h20, hle, hend, rfl⟩)⟩, rfl⟩
  · rw [e1] at h20 hle
    rw [e2] at hle hend
    exact .inr ⟨_, ⟨hb, h20, hle, hend⟩, by rw [e2]⟩

/-- A stop is reported with a code that is not 0. -/
theorem StopReason.code_ne_ok (r : StopReason) : r.code ≠ .ok := by cases r <;> decide

/-- The loop of RUN, one iteration unrolled (R180). -/
theorem runLoop_succ (p : Config.Params) (n : Nat) (s : State) :
    runLoop p (n + 1) s = andThen (splitOnce p s) fun t =>
      if t.code = .ok then andThen (t.dumpRange p t.fstart.toNat t.fend.toNat) (runLoop p n) else .next t := rfl

/-- What a loop that answers a next state did: a last iteration that did not emit, or an iteration that emitted, a dump, and
the rest of the loop. -/
theorem runLoop_next {p : Config.Params} {n : Nat} {s t : State} (h : runLoop p (n + 1) s = .next t) :
    (splitOnce p s = .next t ∧ t.code ≠ .ok)
    ∨ ∃ u v, splitOnce p s = .next u ∧ u.code = .ok ∧ u.dumpRange p u.fstart.toNat u.fend.toNat = .next v
        ∧ runLoop p n v = .next t := by
  rw [runLoop_succ, andThen_eq_next] at h
  obtain ⟨u, hu, h⟩ := h
  split at h
  · next hc =>
    obtain ⟨v, hv, h⟩ := andThen_eq_next.1 h
    exact .inr ⟨u, v, hu, hc, hv, h⟩
  · next hc =>
    injection h with h
    subst h
    exact .inl ⟨hu, hc⟩

/-- The induction over the loop, once: a reflexive and transitive relation that iterations and dumps respect holds between
the state before a RUN and the state after it. -/
theorem runLoop_rel {p : Config.Params} {R : State → State → Prop} (trans : ∀ a b c, R a b → R b c → R a c)
    (hsplit : ∀ a b, splitOnce p a = .next b → R a b)
    (hdump : ∀ a b, a.dumpRange p a.fstart.toNat a.fend.toNat = .next b → R a b) {n : Nat} {s t : State}
    (h : runLoop p n s = .next t) : R s t := by
  induction n generalizing s with
  | zero => cases h
  | succ n ih =>
    rcases runLoop_next h with ⟨hu, _⟩ | ⟨u, v, hu, _, hv, h⟩
    · exact hsplit _ _ hu
    · exact trans _ _ _ (hsplit _ _ hu) (trans _ _ _ (hdump _ _ hv) (ih h))

end Sys2Proof.Machine
end

