-- ==== Sys2Proof/Tests/Slice0.lean ====
section
/-! SUPPORT. Tests: refused ill-formed terms, words written out from the encoding tables of the spec, one step of each
instruction on values of spec/95_test_vectors.md, and a witness for the hypotheses of each obligation. -/

namespace Sys2Proof.Tests

open Sys2Proof.Machine

/-! ### Helpers -/

/-- The minimal frame `MF` of spec/95. -/
def mfBytes : List Byte :=
  [0xff#8, 0xff#8, 0xff#8, 0xff#8, 0xff#8, 0xff#8, 0x00#8, 0x11#8, 0x22#8, 0x33#8, 0x44#8, 0x55#8, 0x08#8, 0x00#8,
   0x45#8, 0x00#8, 0x00#8, 0x14#8, 0x00#8, 0x00#8, 0x00#8, 0x00#8, 0x40#8, 0x06#8, 0x00#8, 0x00#8,
   0x0a#8, 0x00#8, 0x00#8, 0x01#8, 0x0a#8, 0x00#8, 0x00#8, 0x02#8]

/-- The frame `OF` of spec/95. -/
def ofBytes : List Byte :=
  [0xff#8, 0xff#8, 0xff#8, 0xff#8, 0xff#8, 0xff#8, 0x00#8, 0x11#8, 0x22#8, 0x33#8, 0x44#8, 0x55#8, 0x00#8, 0x00#8,
   0x46#8, 0x3f#8, 0x00#8, 0x1c#8, 0x1c#8, 0x46#8, 0x5f#8, 0xff#8, 0x40#8, 0x01#8, 0xb1#8, 0xe6#8,
   0xc0#8, 0xa8#8, 0x01#8, 0x0a#8, 0x08#8, 0x08#8, 0x08#8, 0x08#8, 0x01#8, 0x01#8, 0x01#8, 0x00#8,
   0x00#8, 0x20#8, 0x7e#8, 0x7f#8]

/-- The state after reset and a LOAD of some bytes (R101). -/
def loaded (b : List Byte) : State :=
  { State.reset with buf := b.zipIdx.map fun x => (x.2, x.1), len := toAddr b.length }

/-- The bytes from an address on, as the claims take them. -/
def from_ (b : List Byte) (a : Nat) : Nat → Byte := fun i => b.getD (a + i) 0#8

/-- The outcome is a next state of which `p` holds. -/
def onNext (o : Result) (p : State → Bool) : Bool :=
  match o with
  | .next s => p s
  | .fault _ => false
  | .refused _ => false

/-- The next state of an outcome. -/
def after (o : Result) : State :=
  match o with
  | .next s => s
  | .fault _ => State.reset
  | .refused _ => State.reset

/-- `MF` loaded. -/
def mf : State := loaded mfBytes

/-- `MF` loaded and one NEXT done. -/
def mfNext : State := after (exec .next mf)

/-- `MF` with one byte changed. -/
def mfWith (i : Nat) (v : Byte) : State := loaded (mfBytes.set i v)

/-- A state whose `LEN` is set without loading anything. -/
def withLen (n : Nat) : State := { State.reset with len := toAddr n }

/-! ### Well-formedness refuses each operand that no field carries -/

theorem test_hexdigit_value_too_wide : (Instr.hexdigit (2 ^ 32) 0).wellFormed = false := by decide
theorem test_hexdigit_position_too_wide : (Instr.hexdigit 0 256).wellFormed = false := by decide
theorem test_bindigit_value_too_wide : (Instr.bindigit (2 ^ 32) 0).wellFormed = false := by decide
theorem test_bindigit_position_too_wide : (Instr.bindigit 0 256).wellFormed = false := by decide
theorem test_push_byte_too_wide : (Instr.push 256).wellFormed = false := by decide
theorem test_eth_offset_too_wide : (Instr.eth 2048).wellFormed = false := by decide
theorem test_ip4_offset_too_wide : (Instr.ip4 2048).wellFormed = false := by decide
theorem test_dump_start_too_wide : (Instr.dump 2048 0).wellFormed = false := by decide
theorem test_dump_end_too_wide : (Instr.dump 0 2048).wellFormed = false := by decide

/-! ### Words written out bit by bit from R91 and R98 -/

/-- `bfx_sel` 0, `bfx_pos` 00000001, `bfx_value` 0x45 (R98), numbered as notes/assumptions/12.md says. -/
theorem test_decode_hexdigit :
    decodeTableWord 48 0b00000000100000000000000000000000001000101 = some (.hexdigit 0x45 1) := by decide

/-- `bfx_sel` 1, `bfx_pos` 00000110, `bfx_value` 0x40 (R98), numbered as notes/assumptions/12.md says. -/
theorem test_decode_bindigit :
    decodeTableWord 48 0b10000011000000000000000000000000001000000 = some (.bindigit 0x40 6) := by decide

/-- `op` 0000 and zeros (R91). -/
theorem test_decode_nop : decodeTableWord 32 0b00000000000000000000000000000000 = some .nop := by decide

/-- `op` 0001 and zeros (R91). -/
theorem test_decode_clr : decodeTableWord 32 0b00010000000000000000000000000000 = some .clr := by decide

/-- `op` 0010, `d` 11111111 (R91). -/
theorem test_decode_push : decodeTableWord 32 0b00100000000000000000000011111111 = some (.push 255) := by decide

/-- `op` 0011, `a` 00000010100 (R91). -/
theorem test_decode_eth : decodeTableWord 32 0b00110000000000001010000000000000 = some (.eth 20) := by decide

/-- `op` 0100, `a` 00000110101 (R91). -/
theorem test_decode_ip4 : decodeTableWord 32 0b01000000000000011010100000000000 = some (.ip4 53) := by decide

/-- `op` 0101 and zeros (R91). -/
theorem test_decode_next : decodeTableWord 32 0b01010000000000000000000000000000 = some .next := by decide

/-- `op` 0110 and zeros (R91). -/
theorem test_decode_run : decodeTableWord 32 0b01100000000000000000000000000000 = some .run := by decide

/-- `op` 0111, `a` 00000100111, `b` 00001001001 (R91). -/
theorem test_decode_dump : decodeTableWord 32 0b01110000000000010011100001001001 = some (.dump 39 73) := by decide

/-- The illegal words of spec/95 part 2.6. -/
theorem test_illegal_words :
    [0x80000000, 0xf0000000, 0x10000001, 0x00400000, 0x20000100, 0x50000800, 0x30000001].map (decodeTableWord 32)
      = [none, none, none, none, none, none, none] := by decide

/-! ### One step of each instruction -/

theorem test_hexdigit_top_nibble : onNext (exec (.hexdigit 0xdeadbeef 7) State.reset) (·.bfxOut == 13#4) = true := by decide
theorem test_hexdigit_past_width : onNext (exec (.hexdigit 0xdeadbeef 8) mfNext) (·.bfxOut == 0#4) = true := by decide
theorem test_bindigit_top_bit : onNext (exec (.bindigit 0x80000000 31) State.reset) (·.bfxOut == 1#4) = true := by decide
theorem test_bindigit_clear_bit : onNext (exec (.bindigit 0x40 5) State.reset) (·.bfxOut == 0#4) = true := by decide

theorem test_nop_keeps_code :
    onNext (exec .nop (State.reset.raise .bufferFull .refusal)) (fun t => t.statusWord == 7#32) = true := by decide

theorem test_clr_keeps_streams :
    onNext (exec .clr mfNext) (fun t => t.statusWord == 0#32 && t.len == 0#11 && t.fcnt == 0#8 && t.descHistory.length == 1)
      = true := by decide

theorem test_push_first :
    onNext (exec (.push 0x45) State.reset) (fun t => t.buf == [(0, 0x45#8)] && t.len == 1#11 && t.code == .ok) = true := by
  decide

theorem test_push_last_cell :
    onNext (exec (.push 0xaa) (withLen 1023)) (fun t => t.buf == [(1023, 0xaa#8)] && t.len == 1024#11 && t.code == .ok)
      = true := by decide

/-- `ETH 20` of spec/95 part 2.2. -/
theorem test_eth_20 :
    onNext (exec (.eth 20) mf) (fun t => t.code == .ok && t.readRegister 0x08 == some 0x00000000#32
      && t.readRegister 0x09 == some 0x40060000#32 && t.readRegister 0x0C == some 0x00020002#32) = true := by decide

theorem test_eth_21_truncated : onNext (exec (.eth 21) mfNext) (fun t => t.statusWord == 0x00000a01#32) = true := by decide

/-- Register words of `OF` in spec/95 part 2.3. -/
theorem test_ip4_of :
    onNext (exec (.ip4 14) (loaded ofBytes)) (fun t =>
      [0x10, 0x11, 0x13, 0x14, 0x15, 0x16, 0x17, 0x18, 0x1A].map t.readRegister
        == [some 0x00011846#32, some 0x00003f3f#32, some 0x0000002a#32, some 0x00001c46#32, some 0x00005fff#32,
            some 0x00020140#32, some 0x0000b1e6#32, some 0xc0a8010a#32, some 0x004c002a#32]) = true := by decide

/-- InvalidHeaderLength before InvalidTotalLength (spec/95 part 2.3, `ihl` 4 with `tlen` 0). -/
theorem test_ip4_priority :
    onNext (exec (.ip4 14) (loaded ((mfBytes.set 14 0x44#8).set 17 0x00#8))) (·.code == .invalidHeaderLength) = true := by
  decide

/-- Register words of `MF` after NEXT in spec/95 part 2.3. -/
theorem test_next_mf :
    [0x00, 0x01, 0x02, 0x03, 0x04, 0x0C, 0x10, 0x16, 0x1A].map mfNext.readRegister
      = [some 0x00000e00#32, some 0x22#32, some 0x22#32, some 1#32, some 0x00220000#32, some 0x00000800#32,
         some 0x00001445#32, some 0x00000640#32, some 0x00440022#32] := by decide

/-- A total length one past the buffer (spec/95 part 2.4). -/
theorem test_next_incomplete : onNext (exec .next (mfWith 17 21#8)) (·.statusWord == 0x00000333#32) = true := by decide

/-- Program P1 of spec/95 from its RUN on. -/
theorem test_run_mf :
    onNext (exec .run mf) (fun t => t.statusWord == 0x00000388#32 && t.cur == 34#11 && t.fcnt == 1#8 && t.fend == 34#11
      && t.txtHistory.length == 196) = true := by
  decide +kernel

/-- Two frames in one buffer (spec/95 part 2.4). -/
theorem test_run_two_frames :
    onNext (exec .run (loaded (mfBytes ++ mfBytes))) (fun t => t.fstart == 34#11 && t.fend == 68#11 && t.fcnt == 2#8
      && t.txtHistory.length == 392) = true := by
  decide +kernel

/-- The one-byte dump of spec/95 part 2.5: `0000 41`, forty-five spaces of padding, the gap, `A`. -/
theorem test_dump_one_byte :
    onNext (exec (.dump 0 1) (loaded [0x41#8])) (fun t => t.txtHistory
      == [0x30#8, 0x30#8, 0x30#8, 0x30#8, 0x20#8, 0x34#8, 0x31#8] ++ List.replicate 46 0x20#8 ++ [0x41#8, 0x0A#8]) = true := by
  decide

theorem test_dump_reversed_range :
    onNext (exec (.dump 5 4) (loaded (mfBytes.take 16))) (fun t => t.statusWord == 6#32 && t.out == []) = true := by decide

/-- The classes of spec/95 part 2.2. -/
theorem test_ether_classes :
    [classifyEther 0x08#8 0x00#8, classifyEther 0x00#8 0x00#8, classifyEther 0x08#8 0x06#8, classifyEther 0x00#8 0x08#8,
     classifyEther 0x86#8 0xdd#8] = [.ip, .arp, .unknown, .unknown, .unknown] := by decide

/-- The step fetches what the host put first, and the host's later inputs stay. -/
theorem test_step_takes_first :
    onNext (step (State.reset.withFetchWord 32 0x20000045)) (fun t => t.len == 1#11 && t.inbox == []) = true := by decide

/-- The row terminator the machine runs with is one that D31 admits; a hex digit is not. -/
theorem test_eol_default_legal :
    Config.eolLegal params.eol = true ∧ Config.eolLegal [0x61#8] = false ∧ Config.eolLegal [] = false := by decide

/-! ### Witnesses: states and operands that meet the hypotheses of each obligation -/

/-- HexdigitReadsNibble: the first position past the 32 bits, with the largest value. -/
theorem test_witness_HexdigitReadsNibble : (0xffffffff : Nat) < 2 ^ 32 ∧ 8 ≤ 8 ∧ (0 : Nat) = 0 := by decide

/-- BindigitReadsBit: the first position past the 32 bits, and the top position. -/
theorem test_witness_BindigitReadsBit : (0xffffffff : Nat) < 2 ^ 32 ∧ 32 ≤ 32 ∧ 31 = 31 := by decide

/-- BitFieldLaws: the largest number of two nibbles, the largest byte, the first position above it. -/
theorem test_witness_BitFieldLaws : 255 < 16 ^ 2 ∧ 255 < 256 ∧ 2 ≤ 2 := by decide

/-- A loaded buffer that nothing has read yet satisfies the invariant. -/
theorem mf_inv : mf.Inv where
  canonical := by decide
  lenBound := by decide
  loaded := by decide
  cursor := by decide
  count := by decide
  countZero := by decide
  rangeEnd := by decide
  range := by decide
  unsealed := by decide
  stopTrue := fun _ h => by cases h
  ethOk := fun _ h => by cases h
  ipOk := fun _ h => by cases h
  descOk := fun _ h => by cases h
  textOk := fun _ h => by cases h

/-- NopKeepsEverything: a word with `op` 0 that is not NOP. -/
theorem test_witness_NopKeepsEverything : wordOp 0x00400000#32 = 0#4 ∧ (0x00400000#32 : Word) ≠ 0#32 := by decide

/-- PushAppendsOrIsRefused: a sealed buffer, a full one, and the two ends of the range that takes a byte. -/
theorem test_witness_PushAppendsOrIsRefused :
    mfNext.sealed = true ∧ ((withLen 1024).sealed = false ∧ (withLen 1024).len.toNat = 1024)
    ∧ (State.reset.sealed = false ∧ State.reset.len.toNat < 1024 ∧ Memory.wf State.reset.buf = true)
    ∧ ((withLen 1023).sealed = false ∧ (withLen 1023).len.toNat < 1024 ∧ Memory.wf (withLen 1023).buf = true)
    ∧ 255 < 256 := by decide

/-- PushAppendsOrIsRefused and SealedBufferIsImmutable: commands that read the buffer, a failing ETH among them. -/
theorem test_witness_commands_that_read :
    mf.Inv ∧ exec (.eth 21) mf = .next (mf.raise .truncatedHeader .ethDecode)
    ∧ exec (.dump 34 34) mf = .next mf.markSealed ∧ mf.markSealed.code = .ok := ⟨mf_inv, rfl, rfl, rfl⟩

/-- PushAppendsOrIsRefused, later states of the decode pass: an ETH, a refused PUSH, an illegal word and a sample of `STATUS`
after a failed ETH. -/
theorem test_witness_later_in_the_pass :
    (∀ x ∈ [HostInput.issue (encode (.eth 0)), .issue (encode (.push 1)), .issue (.command 0xf0000000#32),
        .readRegister 0x00#6], x.StaysInPass)
    ∧ performAll [.issue (encode (.eth 0)), .issue (encode (.push 1)), .issue (.command 0xf0000000#32), .readRegister 0x00#6]
        (mf.raise .truncatedHeader .ethDecode)
      = .next (((mf.markSealed.setEth (ethHeaderAt mf.byteAt 0)).setCode .illegalCommand).setRdData 0x00000606#32) := by
  refine ⟨?_, rfl⟩
  intro x hx
  fin_cases hx <;> refine ⟨by decide, ?_⟩ <;> rintro p ⟨⟩ <;> decide

/-- EtherTypeClasses: a pair that is neither. -/
theorem test_witness_EtherTypeClasses :
    ¬((0x08#8 : Byte) = 0x08#8 ∧ (0x01#8 : Byte) = 0x00#8) ∧ ¬((0x08#8 : Byte) = 0x00#8 ∧ (0x01#8 : Byte) = 0x00#8) := by
  decide

/-- EthDecodesOrTruncates: exactly fourteen bytes left, thirteen, and the largest offset. -/
theorem test_witness_EthDecodesOrTruncates :
    mf.Holds 20 14 (from_ mfBytes 20) ∧ (mf.len.toNat : Int) - (21 : Nat) < 14 ∧ (mf.len.toNat : Int) - (2047 : Nat) < 14
    ∧ 2047 < 2048 := by
  unfold State.Holds; decide

/-- ProtocolClasses: a protocol that is neither. -/
theorem test_witness_ProtocolClasses : (7#8 : Byte) ≠ 6#8 ∧ (7#8 : Byte) ≠ 17#8 := by decide

/-- TosByteFields: a map and itself, the one way two maps place `thru` and `delay` alike. -/
theorem test_witness_TosByteFields :
    params.tosMap.thruBit = Config.TosMap.thruDelayRsv.thruBit
    ∧ params.tosMap.delayBit = Config.TosMap.thruDelayRsv.delayBit := by decide

/-- Ip4DecodesHeader: exactly twenty bytes left, both lengths at their least. -/
theorem test_witness_Ip4DecodesHeader :
    mf.Holds 14 20 (from_ mfBytes 14) ∧ 20 ≤ hlenOf (from_ mfBytes 14)
    ∧ hlenOf (from_ mfBytes 14) ≤ tlenOf (from_ mfBytes 14) ∧ 2047 < 2048 := by
  unfold State.Holds; decide

/-- Ip4ConditionsInPriority: nineteen bytes left; `ihl` 4; `tlen` 19. -/
theorem test_witness_Ip4ConditionsInPriority :
    (mf.len.toNat : Int) - (15 : Nat) < 20
    ∧ ((mfWith 14 0x44#8).Holds 14 20 (from_ (mfBytes.set 14 0x44#8) 14) ∧ hlenOf (from_ (mfBytes.set 14 0x44#8) 14) < 20)
    ∧ ((mfWith 17 19#8).Holds 14 20 (from_ (mfBytes.set 17 19#8) 14) ∧ 20 ≤ hlenOf (from_ (mfBytes.set 17 19#8) 14)
      ∧ tlenOf (from_ (mfBytes.set 17 19#8) 14) < hlenOf (from_ (mfBytes.set 17 19#8) 14)) := by
  unfold State.Holds; decide

/-- NextEmitsFrame: a frame that ends exactly at `LEN`. -/
theorem test_witness_NextEmitsFrame : mf.stopReason = none ∧ mf.FrameBytes mf.cur.toNat (from_ mfBytes 0) := by
  unfold State.FrameBytes State.Holds; decide

/-- NextStopsWithReason, too few bytes: an empty buffer, thirty-three bytes, and none left after a frame. -/
theorem test_witness_NextStopsWithReason_short :
    (State.reset.stopReason = none ∧ State.reset.StopsAt State.reset.cur.toNat .trailingDataTooShort)
    ∧ ((loaded (mfBytes.take 33)).stopReason = none
      ∧ (loaded (mfBytes.take 33)).StopsAt (loaded (mfBytes.take 33)).cur.toNat .trailingDataTooShort)
    ∧ (mfNext.stopReason = none ∧ mfNext.StopsAt mfNext.cur.toNat .endOfBuffer) :=
  ⟨⟨rfl, .inl (by decide)⟩, ⟨rfl, .inl (by decide)⟩, ⟨by decide, .inl (by decide)⟩⟩

/-- NextStopsWithReason, the three conditions of a decode: `ihl` 4, `tlen` 19, a frame one byte past `LEN`. -/
theorem test_witness_NextStopsWithReason_decoded :
    ((mfWith 14 0x44#8).stopReason = none ∧ (mfWith 14 0x44#8).StopsAt (mfWith 14 0x44#8).cur.toNat .invalidHeaderLength)
    ∧ ((mfWith 17 19#8).stopReason = none ∧ (mfWith 17 19#8).StopsAt (mfWith 17 19#8).cur.toNat .invalidTotalLength)
    ∧ ((mfWith 17 21#8).stopReason = none ∧ (mfWith 17 21#8).StopsAt (mfWith 17 21#8).cur.toNat .incompleteFrame) :=
  ⟨⟨rfl, .inr ⟨from_ (mfBytes.set 14 0x44#8) 0, by unfold State.Holds; decide, .inl (by decide)⟩⟩,
   ⟨rfl, .inr ⟨from_ (mfBytes.set 17 19#8) 0, by unfold State.Holds; decide, .inr (.inl (by decide))⟩⟩,
   ⟨rfl, .inr ⟨from_ (mfBytes.set 17 21#8) 0, by unfold State.Holds; decide, .inr (.inr (by decide))⟩⟩⟩

/-- StoppedSplitterOnlyReports: the splitter after a NEXT on an empty buffer. -/
theorem test_witness_StoppedSplitterOnlyReports :
    (after (exec .next State.reset)).stopReason = some .trailingDataTooShort := by decide

/-- ShortBufferYieldsNoFrame: the empty buffer, the longest short one, and one byte and thirty-three bytes after a frame. -/
theorem test_witness_ShortBufferYieldsNoFrame :
    (State.reset.stopReason = none ∧ State.reset.cur = 0#11 ∧ State.reset.len.toNat < 34)
    ∧ ((withLen 33).stopReason = none ∧ (withLen 33).cur = 0#11 ∧ (withLen 33).len.toNat < 34)
    ∧ (mfNext.stopReason = none ∧ mfNext.cur.toNat < (mfNext.setLen 35#11).len.toNat
      ∧ (mfNext.setLen 67#11).len.toNat < mfNext.cur.toNat + 34) := by decide

/-- EmittedFrameRange: the frame `MF`. -/
theorem test_witness_EmittedFrameRange : exec .next mf = .next mfNext ∧ mfNext.code = .ok := ⟨rfl, by decide⟩

/-- The E group after the NEXT on `MF`. -/
theorem mfNext_eth : mfNext.eth = some (ethHeaderAt mf.byteAt 0) := by decide

/-- The I group after the NEXT on `MF`. -/
theorem mfNext_ip : mfNext.ip = some (ipHeaderAt params.tosMap mf.byteAt 14) := by decide

/-- What the NEXT on `MF` emitted. -/
theorem mfNext_out :
    mfNext.out = [.desc (frameDescriptor 0#11 34#11 (ethHeaderAt mf.byteAt 0) (ipHeaderAt params.tosMap mf.byteAt 14))] := by
  decide

/-- The fields of that header satisfy the identities of R32. -/
theorem mf_ip_consistent : (ipHeaderAt params.tosMap mf.byteAt 14).toIpFields.Consistent params.tosMap := by
  unfold IpFields.Consistent; decide

/-- A state a run reaches, with a frame emitted and both groups holding a value, satisfies the invariant. -/
theorem mfNext_inv : mfNext.Inv where
  canonical := by decide
  lenBound := by decide
  loaded := by decide
  cursor := by decide
  count := by decide
  countZero := by decide
  rangeEnd := by decide
  range := by decide
  unsealed := by decide
  stopTrue := fun _ h => absurd h (by rw [show mfNext.stopReason = none by decide]; simp)
  ethOk := by
    intro h hh
    rw [mfNext_eth, Option.some.injEq] at hh
    subst hh
    exact ⟨rfl, 0, from_ mfBytes 0, by unfold State.Holds; decide, by unfold EthHeaderOf; decide⟩
  ipOk := by
    intro h hh
    rw [mfNext_ip, Option.some.injEq] at hh
    subst hh
    exact ⟨mf_ip_consistent, 14, from_ mfBytes 14, by unfold State.Holds; decide, by unfold IpHeaderOf; decide, by decide⟩
  descOk := by
    intro d hd
    rw [mfNext_out, List.mem_singleton, Beat.desc.injEq] at hd
    subst hd
    exact ⟨by decide, by decide, by unfold EthHeader.Consistent; decide, mf_ip_consistent⟩
  textOk := by
    intro c hc
    rw [mfNext_out, List.mem_singleton] at hc
    cases hc

/-- A state of a stopped splitter, a frame one byte past `LEN` at its cursor, satisfies the invariant. -/
theorem stopped_inv : ((mfWith 17 21#8).stopWith .incompleteFrame).Inv where
  canonical := by decide
  lenBound := by decide
  loaded := by decide
  cursor := by decide
  count := by decide
  countZero := by decide
  rangeEnd := by decide
  range := by decide
  unsealed := by decide
  stopTrue := by
    rintro r ⟨⟩
    exact .inr ⟨from_ (mfBytes.set 17 21#8) 0, by unfold State.Holds; decide, .inr (.inr (by decide))⟩
  ethOk := fun _ h => by cases h
  ipOk := fun _ h => by cases h
  descOk := fun _ h => by cases h
  textOk := fun _ h => by cases h

/-- RunIsNextThenDump, RunWalksTheBuffer, RunNeedsNoMoreIterations, CommandsAlwaysComplete: an unstopped splitter that has
emitted a frame, and the least bound. -/
theorem test_witness_Inv : mfNext.Inv ∧ mfNext.stopReason = none ∧ 31 ≤ 31 := ⟨mfNext_inv, by decide, by decide⟩

/-- DumpRendersRange: the whole buffer, the empty range at `LEN`, a reversed range, a range past `LEN`. -/
theorem test_witness_DumpRendersRange :
    (0 ≤ 34 ∧ mf.Holds 0 (34 - 0) (from_ mfBytes 0)) ∧ (34 ≤ 34 ∧ mf.Holds 34 (34 - 34) (from_ mfBytes 34))
    ∧ ¬(5 ≤ 4 ∧ 4 ≤ mf.len.toNat) ∧ ¬(0 ≤ 35 ∧ 35 ≤ mf.len.toNat) ∧ 34 ≤ mf.len.toNat ∧ 2047 < 2048 := by
  unfold State.Holds; decide

/-- HexDumpColumns: the last row of `MF`, two bytes long, with its first padded cell and its terminator. -/
theorem test_witness_HexDumpColumns :
    16 * 2 < mfBytes.length ∧ 2 = min 16 (mfBytes.length - 16 * 2)
    ∧ 140 = 2 * (68 + params.hdGap + params.eol.length) ∧ mfBytes[16 * 2 + 1]? = some 0x02#8
    ∧ (2 ≤ 2 ∧ 2 < 16) ∧ 14 < 15 ∧ 0 < params.hdGap ∧ 0 < params.eol.length := by decide

/-- HexCharacterCodes: the ends of the two ranges. -/
theorem test_witness_HexCharacterCodes : 9 ≤ 9 ∧ (10 ≤ 10 ∧ 10 ≤ 15) ∧ (10 ≤ 15 ∧ 15 ≤ 15) := by decide

/-- AsciiColumnRendering: the ends of the printable range and the bytes just outside it. -/
theorem test_witness_AsciiColumnRendering :
    (33 ≤ (33#8 : Byte).toNat ∧ (33#8 : Byte).toNat ≤ 126) ∧ (33 ≤ (126#8 : Byte).toNat ∧ (126#8 : Byte).toNat ≤ 126)
    ∧ (32#8 : Byte).toNat < 33 ∧ 126 < (127#8 : Byte).toNat := by decide

/-- ReadPortMap: a state with the E group alone, a state with the I group alone, and a state with both. -/
theorem test_witness_ReadPortMap :
    ((after (exec (.eth 20) mf)).eth = some (ethHeaderAt mf.byteAt 20) ∧ (after (exec (.eth 20) mf)).ip = none)
    ∧ ((after (exec (.ip4 14) mf)).ip = some (ipHeaderAt params.tosMap mf.byteAt 14)
      ∧ (after (exec (.ip4 14) mf)).eth = none)
    ∧ mfNext.eth = some (ethHeaderAt mf.byteAt 0) ∧ mfNext.ip = some (ipHeaderAt params.tosMap mf.byteAt 14) := by
  decide

/-- UnlistedAddressesReadZero: the ends of the three gaps of the map. -/
theorem test_witness_UnlistedAddressesReadZero :
    (5 ≤ (5#6).toNat ∧ (7#6).toNat ≤ 7) ∧ (0x0D ≤ (0x0D#6).toNat ∧ (0x0F#6).toNat ≤ 0x0F) ∧ 0x1B ≤ (0x1B#6).toNat
    ∧ 0x1B ≤ (0x3F#6).toNat := by decide

/-- ReadPortSampling: a sample that shows a word, and samples of a group without a value at each end of its addresses. -/
theorem test_witness_ReadPortSampling :
    ((mfNext.setInbox [.readRegister 0x1A#6]).inbox = .readRegister 0x1A#6 :: []
      ∧ (mfNext.setInbox [.readRegister 0x1A#6]).readRegister 0x1A#6 = some 0x00440022#32)
    ∧ (∀ a ∈ [0x08#6, 0x0C#6, 0x10#6, 0x1A#6], (State.reset.setInbox [.readRegister a]).inbox = .readRegister a :: []
      ∧ ((State.reset.eth = none ∧ 0x08 ≤ a.toNat ∧ a.toNat ≤ 0x0C)
        ∨ (State.reset.ip = none ∧ 0x10 ≤ a.toNat ∧ a.toNat ≤ 0x1A)))
    ∧ (∀ a ∈ [0x00#6, 0x07#6, 0x0D#6, 0x0F#6, 0x1B#6, 0x3F#6],
      ¬((State.reset.eth = none ∧ 0x08 ≤ a.toNat ∧ a.toNat ≤ 0x0C)
        ∨ (State.reset.ip = none ∧ 0x10 ≤ a.toNat ∧ a.toNat ≤ 0x1A))) := by decide

/-- PackedRegistersShowBufferBytes: an IP4 and an ETH that report 0. -/
theorem test_witness_PackedRegistersShowBufferBytes :
    (mf.Holds 14 20 (from_ mfBytes 14) ∧ exec (.ip4 14) mf = .next (after (exec (.ip4 14) mf))
      ∧ (after (exec (.ip4 14) mf)).code = .ok)
    ∧ (mf.Holds 20 14 (from_ mfBytes 20) ∧ exec (.eth 20) mf = .next (after (exec (.eth 20) mf))
      ∧ (after (exec (.eth 20) mf)).code = .ok) :=
  ⟨⟨by unfold State.Holds; decide, rfl, by decide⟩, ⟨by unfold State.Holds; decide, rfl, by decide⟩⟩

/-- RstGivesResetState: `rst` after a frame. -/
theorem test_witness_RstGivesResetState : (mfNext.setInbox [.assertRst]).inbox = .assertRst :: [] := rfl

/-- StepRunsDecodedInstruction: a PUSH on the command port, a BINDIGIT on the bit-field port, an
illegal word. -/
theorem test_witness_StepRunsDecodedInstruction :
    ((State.reset.withFetchWord 32 0x20000045).inbox = .issue (.command 0x20000045#32) :: []
      ∧ decodePort (.command 0x20000045#32) = .ok (.push 0x45))
    ∧ ((State.reset.withFetchWord 48 0x10600000040).inbox = .issue (.bitField true 6#8 0x40#32) :: []
      ∧ decodePort (.bitField true 6#8 0x40#32) = .ok (.bindigit 0x40 6))
    ∧ ((mf.withFetchWord 32 0x80000000).inbox = .issue (.command 0x80000000#32) :: []
      ∧ decodePort (.command 0x80000000#32) = .error .reservedOp) := by decide

/-- IllegalWordsAreRefused: a word for each clause. -/
theorem test_witness_IllegalWordsAreRefused :
    8 ≤ (wordOp 0x80000000#32).toNat ∧ wordZ 0x00400000#32 ≠ 0#6
    ∧ ((wordOp 0x60000001#32).toNat ∈ [0, 1, 5, 6] ∧ wordB 0x60000001#32 ≠ 0#11)
    ∧ ((wordOp 0x50000800#32).toNat ∈ [0, 1, 5, 6] ∧ wordA 0x50000800#32 ≠ 0#11)
    ∧ ((wordOp 0x20000100#32).toNat = 2 ∧ (wordB 0x20000100#32).extractLsb' 8 3 ≠ 0#3)
    ∧ ((wordOp 0x40000001#32).toNat ∈ [3, 4] ∧ wordB 0x40000001#32 ≠ 0#11) := by decide

/-- IdleBlockWaits: the host does nothing. -/
theorem test_witness_IdleBlockWaits : mfNext.inbox = [] := by decide

/-- DecodeAgreesWithOpcodeTable: a row of the table and a word it admits. -/
theorem test_witness_DecodeAgreesWithOpcodeTable :
    (⟨0xFFFFFF00#32, 0x20000000#32⟩ : OpRow) ∈ opTable
    ∧ OpRow.admits ⟨0xFFFFFF00#32, 0x20000000#32⟩ 0x200000ff#32 = true := by decide

/-- EncodeDecodeRoundTrip: every constructor at the largest operands its fields carry. -/
theorem test_witness_EncodeDecodeRoundTrip :
    ∀ i ∈ [Instr.hexdigit 0xffffffff 255, .bindigit 0xffffffff 255, .nop, .clr, .push 255, .eth 2047, .ip4 2047, .next, .run,
      .dump 2047 2047], i.wellFormed = true := by decide

/-- DecodeEncodeRoundTrip: a command word and the bit-field inputs. -/
theorem test_witness_DecodeEncodeRoundTrip :
    decodePort (.command 0x70ffffff#32) = .error .nonzeroZ ∧ decodePort (.command 0x703fffff#32) = .ok (.dump 2047 2047)
    ∧ decodePort (.bitField false 255#8 0xffffffff#32) = .ok (.hexdigit 0xffffffff 255) := by decide

/-- StepKeepsInvariant and OnlyInvalidReadsFault: a step that completes, with both groups valid and with the splitter
stopped. -/
theorem test_witness_StepKeepsInvariant :
    (mfNext.Inv ∧ step mfNext = .next mfNext)
    ∧ ((mfWith 17 21#8).stopWith .incompleteFrame).Inv
    ∧ step ((mfWith 17 21#8).stopWith .incompleteFrame) = .next ((mfWith 17 21#8).stopWith .incompleteFrame) :=
  ⟨⟨mfNext_inv, rfl⟩, stopped_inv, rfl⟩

/-- WhoWritesWhat and HistoriesOnlyGrow: an operation of each kind that completes. -/
theorem test_witness_WhoWritesWhat :
    ∀ i ∈ [Instr.hexdigit 0x45 1, .bindigit 0x40 6, .nop, .clr, .push 1, .eth 0, .ip4 14, .next, .dump 0 1],
      exec i mf = .next (after (exec i mf)) := by
  intro i hi
  fin_cases hi <;> rfl

/-- RefusalWritesCodeOnly: a refused PUSH of each code, and a refused DUMP. -/
theorem test_witness_RefusalWritesCodeOnly :
    (exec (.push 1) mfNext = .next (mfNext.setCode .illegalCommand))
    ∧ (exec (.push 1) (withLen 1024) = .next ((withLen 1024).setCode .bufferFull))
    ∧ (exec (.dump 5 4) mf = .next (mf.setCode .illegalCommand))
    ∧ decodePort (.command 0xf0000000#32) = .error .reservedOp := ⟨rfl, rfl, rfl, rfl⟩

/-- DecoderConditionWrites: an ETH and an IP4 that report a condition. -/
theorem test_witness_DecoderConditionWrites :
    (exec (.eth 21) mf = .next (after (exec (.eth 21) mf)) ∧ (after (exec (.eth 21) mf)).code ≠ .ok)
    ∧ (exec (.ip4 15) mf = .next (after (exec (.ip4 15) mf)) ∧ (after (exec (.ip4 15) mf)).code ≠ .ok) :=
  ⟨⟨rfl, by decide⟩, ⟨rfl, by decide⟩⟩

/-- SplitterStopWrites: a NEXT and a RUN that stop. -/
theorem test_witness_SplitterStopWrites :
    State.reset.stopReason = none ∧ exec .next State.reset = .next (State.reset.stopWith .trailingDataTooShort)
    ∧ (State.reset.stopWith .trailingDataTooShort).code ≠ .ok
    ∧ exec .run State.reset = .next (State.reset.stopWith .trailingDataTooShort) := ⟨rfl, rfl, by decide, rfl⟩

/-- An outcome that is a next state is the next state `after` reads from it. -/
theorem onNext_after {o : Result} (h : onNext o (fun _ => true) = true) : o = .next (after o) := by
  cases o with
  | next s => rfl
  | fault f => cases h
  | refused r => cases h

/-- SplitterStopWrites: a RUN whose first iteration emits the frame `MF`. -/
theorem test_witness_SplitterStopWrites_after_a_frame :
    exec .next mf = .next mfNext ∧ mfNext.code = .ok ∧ exec .run mf = .next (after (exec .run mf)) :=
  ⟨rfl, by decide, onNext_after (by decide +kernel)⟩

/-- OnlyClrLeavesStopAndSeal, SealedBufferIsImmutable: an operation other than CLR on a stopped, sealed buffer. -/
theorem test_witness_OnlyClrLeavesStopAndSeal :
    (State.reset.stopWith .trailingDataTooShort).sealed = true
    ∧ (State.reset.stopWith .trailingDataTooShort).stopReason = some .trailingDataTooShort
    ∧ exec (.push 1) (State.reset.stopWith .trailingDataTooShort)
      = .next ((State.reset.stopWith .trailingDataTooShort).setCode .illegalCommand)
    ∧ Instr.push 1 ≠ .clr := ⟨rfl, rfl, rfl, by decide⟩

/-- CellsAboveLenUnobservable: two different states, one of which still holds a byte a CLR left above `LEN`. -/
theorem test_witness_CellsAboveLenUnobservable :
    SameBelowLen State.reset { State.reset with buf := [(0, 0x45#8)] } ∧ State.reset ≠ { State.reset with buf := [(0, 0x45#8)] } :=
  ⟨⟨rfl, fun _ h => absurd h (by simp [State.reset])⟩, by decide⟩

/-- EncodeLegal of Laws/PerInstr.lean: an instruction with operands. -/
theorem test_witness_EncodeLegal : (Instr.dump 39 73).wellFormed = true := by decide

end Sys2Proof.Tests
end

section
/-! PROOFS. What each operation that completes has done: one inversion lemma per operation, which later proofs take apart
instead of unfolding the operation. -/

namespace Sys2Proof.Machine

/-- A PUSH is refused because the buffer is sealed, or because it is full, or stores its byte at `LEN` (R213, R243). -/
theorem execPush_cases {d : Nat} {s t : State} (h : execPush d s = .next t) :
    (s.sealed = true ∧ t = s.raise .illegalCommand .refusal)
    ∨ (s.sealed = false ∧ s.len.toNat = 1024 ∧ t = s.raise .bufferFull .refusal)
    ∨ (s.sealed = false ∧ s.len.toNat < 1024
        ∧ t = { s with buf := Memory.write s.buf s.len.toNat (toByte d), len := s.len + 1#11, code := .ok }) := by
  unfold execPush Config.bufSize at h
  split at h
  · next hs => exact .inl ⟨hs, by injection h with h; exact h.symm⟩
  · next hs =>
    have hs : s.sealed = false := by simpa using hs
    split at h
    · next hl => exact .inr (.inl ⟨hs, hl, by injection h with h; exact h.symm⟩)
    · obtain ⟨u, hu, h⟩ := andThen_eq_next.1 h
      obtain ⟨hl, rfl⟩ := State.memWrite_next hu
      injection h with h
      exact .inr (.inr ⟨hs, hl, h.symm⟩)

/-- An ETH finds too few bytes and drops the E group, or stores the header of fourteen bytes it read (R130, R131). -/
theorem execEth_cases {off : Nat} {s t : State} (h : execEth off s = .next t) :
    (s.len.toNat < off + 14 ∧ t = s.raise .truncatedHeader .ethDecode)
    ∨ (s.Holds off 14 (fun i => s.byteAt (off + i))
        ∧ t = (s.markSealed.setEth (ethHeaderAt s.byteAt off)).setCode .ok) := by
  unfold execEth Config.ethLen at h
  split at h
  · next hs => exact .inl ⟨State.short_iff.1 hs, by injection h with h; exact h.symm⟩
  · next hs =>
    have hl : off + 14 ≤ s.len.toNat := State.short_false_iff.1 (by simpa using hs)
    split at h
    · next hr =>
      injection h with h
      exact .inr ⟨State.holds_of_readable hl hr, h.symm⟩
    · cases h

/-- An IP4 ends with one of three conditions and has then dropped the I group, or stores a header that the decode let
through (R140, R154). -/
theorem execIp4_cases {off : Nat} {s t : State} (h : execIp4 off s = .next t) :
    (∃ c, (c = .truncatedHeader ∨ c = .invalidHeaderLength ∨ c = .invalidTotalLength) ∧ t = s.raise c .ipDecode)
    ∨ (s.Holds off 20 (fun i => s.byteAt (off + i)) ∧ 20 ≤ ipHlenAt s.byteAt off
        ∧ ipHlenAt s.byteAt off ≤ ipTlenAt s.byteAt off
        ∧ t = (s.markSealed.setIp (ipHeaderAt params.tosMap s.byteAt off)).setCode .ok) := by
  unfold execIp4 at h
  split at h
  · exact .inl ⟨_, .inl rfl, by injection h with h; exact h.symm⟩
  · next hs =>
    have hl : off + 20 ≤ s.len.toNat := State.short_false_iff.1 (by simpa [Config.ipMin] using hs)
    split at h
    · next hr =>
      rcases decodeIpAt_cases params.tosMap s.byteAt off with ⟨-, hd⟩ | ⟨-, -, hd⟩ | ⟨h20, hle, hd⟩ <;> rw [hd] at h <;>
        injection h with h
      · exact .inl ⟨_, .inr (.inl rfl), h.symm⟩
      · exact .inl ⟨_, .inr (.inr rfl), h.symm⟩
      · exact .inr ⟨State.holds_of_readable hl hr, h20, hle, h.symm⟩
    · cases h

/-- A DUMP of an illegal range is refused, and one of a legal range emits the text of its bytes (R190, R191). -/
theorem execDump_cases {first last : Nat} {s t : State} (h : execDump first last s = .next t) :
    (¬(first ≤ last ∧ last ≤ s.len.toNat) ∧ t = s.raise .illegalCommand .refusal)
    ∨ ((first ≤ last ∧ last ≤ s.len.toNat)
        ∧ t = (s.markSealed.emitText (hexDump params (s.markSealed.bytes first last))).setCode .ok) := by
  unfold execDump at h
  rw [← State.rangeLegal_iff]
  split at h
  · next hr =>
    obtain ⟨u, hu, h⟩ := andThen_eq_next.1 h
    obtain ⟨-, rfl⟩ := State.dumpRange_next hu
    injection h with h
    exact .inr ⟨hr, h.symm⟩
  · next hr =>
    injection h with h
    exact .inl ⟨hr, h.symm⟩

/-- A stop of the splitter, a re-report of one, or a frame: what an iteration does, without why. -/
theorem splitOnce_outcomes {p : Config.Params} {s t : State} (h : splitOnce p s = .next t) :
    (∃ r, s.stopReason = some r ∧ t = s.setCode r.code) ∨ (∃ r, t = s.stopWith r) ∨ ∃ e i z, t = s.emitFrame e i z := by
  rcases splitOnce_cases h with ⟨r, hr, ht⟩ | ⟨-, -, ht⟩ | ⟨-, -, -, c, -, ht⟩ | ⟨-, -, -, -, -, -, ht⟩
    | ⟨-, -, -, -, -, -, ht⟩
  · exact .inl ⟨r, hr, ht⟩
  · exact .inr (.inl ⟨_, ht⟩)
  · exact .inr (.inl ⟨_, ht⟩)
  · exact .inr (.inl ⟨_, ht⟩)
  · exact .inr (.inr ⟨_, _, _, ht⟩)

end Sys2Proof.Machine
end

section
/-! PROOFS. The invariant: each named update keeps it, so each operation does, so each step does. -/

namespace Sys2Proof.Machine

/-! ### The updates -/

/-- The invariant says nothing of `STATUS.code` and of the model's own fields. -/
theorem State.Inv.of_same_registers {s : State} (h : s.Inv) (c : Code) (x : BitVec 4) (w : Word) (l : List HostInput) :
    ({ s with code := c, bfxOut := x, rdData := w, inbox := l } : State).Inv :=
  ⟨h.canonical, h.lenBound, h.loaded, h.cursor, h.count, h.countZero, h.rangeEnd, h.range, h.unsealed, h.stopTrue,
    h.ethOk, h.ipOk, h.descOk, h.textOk⟩

theorem State.Inv.setCode {s : State} (h : s.Inv) (c : Code) : (s.setCode c).Inv := h.of_same_registers c _ _ _

theorem State.Inv.setBfxOut {s : State} (h : s.Inv) (x : BitVec 4) : (s.setBfxOut x).Inv := h.of_same_registers _ x _ _

theorem State.Inv.setRdData {s : State} (h : s.Inv) (w : Word) : (s.setRdData w).Inv := h.of_same_registers _ _ w _

theorem State.Inv.setInbox {s : State} (h : s.Inv) (l : List HostInput) : (s.setInbox l).Inv := h.of_same_registers _ _ _ l

theorem State.Inv.raise_refusal {s : State} (h : s.Inv) (c : Code) : (s.raise c .refusal).Inv := h.setCode c

theorem State.Inv.markSealed {s : State} (h : s.Inv) : s.markSealed.Inv :=
  { h with unsealed := nofun }

theorem State.Inv.setEth {s : State} (h : s.Inv) (hs : s.sealed = true) {e : EthHeader} (he : e.Consistent)
    (hb : s.ShowsEth e) : (s.setEth e).Inv :=
  { h with
    unsealed := fun hu => by simp [hs] at hu
    ethOk := fun e' he' => by
      cases he'
      exact ⟨he, hb⟩ }

theorem State.Inv.setIp {s : State} (h : s.Inv) (hs : s.sealed = true) {i : IpHeader}
    (hi : i.toIpFields.Consistent params.tosMap) (hb : s.ShowsIp i) : (s.setIp i).Inv :=
  { h with
    unsealed := fun hu => by simp [hs] at hu
    ipOk := fun i' hi' => by
      cases hi'
      exact ⟨hi, hb⟩ }

theorem State.Inv.raise_ethDecode {s : State} (h : s.Inv) (c : Code) : (s.raise c .ethDecode).Inv :=
  { h with unsealed := nofun, ethOk := fun _ he => absurd he.symm (Option.some_ne_none _) }

theorem State.Inv.raise_ipDecode {s : State} (h : s.Inv) (c : Code) : (s.raise c .ipDecode).Inv :=
  { h with unsealed := nofun, ipOk := fun _ hi => absurd hi.symm (Option.some_ne_none _) }

theorem State.Inv.stopWith {s : State} (h : s.Inv) {r : StopReason} (hr : s.StopsAt s.cur.toNat r) : (s.stopWith r).Inv :=
  { h with
    unsealed := nofun
    ethOk := fun _ he => absurd he.symm (Option.some_ne_none _)
    ipOk := fun _ hi => absurd hi.symm (Option.some_ne_none _)
    stopTrue := fun r' hr' => by
      cases hr'
      exact hr }

theorem State.Inv.emitText {s : State} (h : s.Inv) {cs : List Byte} (hc : ∀ c ∈ cs, TextCode params c) :
    (s.emitText cs).Inv :=
  { h with
    descOk := fun d hd => h.descOk d (by simpa using hd)
    textOk := fun c hm => by
      simp only [State.emitText_out, List.mem_append, List.mem_map, Beat.char.injEq, exists_eq_right] at hm
      exact hm.elim (h.textOk c) (hc c) }

theorem State.Inv.emitDesc {s : State} (h : s.Inv) {d : Descriptor} (hd : d.Valid) : (s.emitDesc d).Inv :=
  { h with
    descOk := fun d' hm => by
      simp only [State.emitDesc_out, List.mem_append, List.mem_singleton, Beat.desc.injEq] at hm
      rcases hm with hm | rfl
      · exact h.descOk d' hm
      · exact hd
    textOk := fun c hm => h.textOk c (by simpa using hm) }

/-- Range, count and cursor move together when a frame of at least 34 bytes inside the buffer is taken. -/
theorem State.Inv.moveTo {s : State} (h : s.Inv) (hs : s.sealed = true) (hr : s.stopReason = none) {z : BitVec 11}
    (hz : s.cur.toNat + 34 ≤ z.toNat) (hl : z.toNat ≤ s.len.toNat) : ((s.setRange s.cur z).advance z).Inv := by
  have hcount := h.count
  have hlen := h.lenBound
  have hfcnt : (s.fcnt + 1#8).toNat = s.fcnt.toNat + 1 := by
    rw [BitVec.toNat_add_of_lt] <;> simp; omega
  refine { h with
    cursor := hl
    rangeEnd := rfl
    range := .inr hz
    unsealed := fun hu => by simp [hs] at hu
    stopTrue := fun r hr' => by simp [hr] at hr'
    count := ?_
    countZero := ?_ }
  · simp only [State.advance_fcnt, State.setRange_fcnt, State.advance_cur, hfcnt]
    omega
  · simp only [State.advance_fcnt, State.setRange_fcnt, State.advance_cur, ← BitVec.toNat_inj, hfcnt, BitVec.toNat_ofNat]
    omega

/-- Cleared registers satisfy the invariant over any canonical buffer and any histories of valid beats. -/
theorem State.inv_clear {s : State} (hb : Memory.wf s.buf = true) (hd : ∀ d, Beat.desc d ∈ s.out → d.Valid)
    (hc : ∀ c, Beat.char c ∈ s.out → TextCode params c) : s.clear.Inv where
  canonical := hb
  lenBound := Nat.zero_le _
  loaded _ ha := absurd ha (Nat.not_lt_zero _)
  cursor := Nat.le_refl _
  count := Nat.le_refl _
  countZero := iff_of_true rfl rfl
  rangeEnd := rfl
  range := .inl ⟨rfl, rfl⟩
  unsealed _ := ⟨rfl, rfl, rfl, rfl⟩
  stopTrue := nofun
  ethOk := fun _ he => absurd he.symm (Option.some_ne_none _)
  ipOk := fun _ hi => absurd hi.symm (Option.some_ne_none _)
  descOk := hd
  textOk := hc

theorem State.Inv.clear {s : State} (h : s.Inv) : s.clear.Inv := State.inv_clear h.canonical h.descOk h.textOk

/-- `rst` is CLR with the histories emptied (R260). -/
theorem State.Inv.applyRst {s : State} (h : s.Inv) : s.applyRst.Inv :=
  State.inv_clear (s := { s with out := [] }) h.canonical (fun _ hd => absurd hd List.not_mem_nil)
    (fun _ hc => absurd hc List.not_mem_nil)

/-- A byte pushed at `LEN` of an unsealed buffer extends what is loaded; the other clauses rest on registers that are still
those of an unread buffer. -/
theorem State.Inv.append {s : State} (h : s.Inv) (hs : s.sealed = false) (hl : s.len.toNat < 1024) (v : Byte) :
    ({ s with buf := Memory.write s.buf s.len.toNat v, len := s.len + 1#11, code := .ok } : State).Inv := by
  obtain ⟨hcur, hstop, heth, hip⟩ := h.unsealed hs
  have hlen : (s.len + 1#11).toNat = s.len.toNat + 1 := by
    rw [BitVec.toNat_add_of_lt] <;> simp; omega
  refine { h with
    canonical := Memory.wf_write v hl h.canonical
    lenBound := ?_
    loaded := fun a ha => ?_
    cursor := ?_
    stopTrue := fun r hr => by simp [hstop] at hr
    ethOk := fun e he => by simp [heth] at he
    ipOk := fun i hi => by simp [hip] at hi }
  · simp only [hlen]
    omega
  · simp only [hlen] at ha
    rw [Memory.read_write]
    split
    · rfl
    · exact h.loaded a (by omega)
  · simp [hcur]

/-! ### The operations -/

/-- The descriptor of a frame inside a buffer is one R172 admits. -/
theorem frameDescriptor_valid {first z : BitVec 11} {rd : Nat → Byte} {a off : Nat}
    (h20 : 20 ≤ ipHlenAt rd off) (hle : ipHlenAt rd off ≤ ipTlenAt rd off)
    (hz : z.toNat = first.toNat + 14 + ipTlenAt rd off) (hb : z.toNat ≤ 1024) :
    (frameDescriptor first z (ethHeaderAt rd a) (ipHeaderAt params.tosMap rd off)).Valid := by
  obtain ⟨-, -, -, htlen, -, -⟩ := ipHeaderAt_numbers params.tosMap rd off
  exact ⟨hz.trans (by rw [← htlen]; rfl), hb, ethHeaderAt_consistent rd a, ipHeaderAt_consistent _ rd off h20 hle⟩

theorem State.Inv.splitOnce {s t : State} (h : s.Inv) (ht : splitOnce params s = .next t) : t.Inv := by
  rcases hs : s.stopReason with _ | r
  · rcases splitOnce_stop_or_frame hs ht with ⟨r, hr, rfl⟩ | ⟨b, ⟨hb, h20, hle, hend⟩, rfl⟩
    · exact h.stopWith hr
    · obtain ⟨ehlen, etlen⟩ := hb.ipLengths
      have hlen := h.lenBound
      have hz : (toAddr (s.cur.toNat + 14 + tlenOf (ipPart b))).toNat = s.cur.toNat + 14 + tlenOf (ipPart b) :=
        toAddr_toNat (by omega)
      rw [← ehlen] at h20 hle
      rw [← etlen] at hle hend hz ⊢
      have hmoved : ((s.markSealed.setRange s.cur _).advance _).Inv :=
        h.markSealed.moveTo rfl hs (by rw [hz, State.markSealed_cur]; omega) (by rw [hz]; exact hend)
      have heth := hmoved.setEth rfl (ethHeaderAt_consistent _ _)
        (ethHeaderAt_shows (hb.part (k := 0) (m := 14) (by decide)))
      have hip := heth.setIp rfl (ipHeaderAt_consistent _ _ _ h20 hle)
        (ipHeaderAt_shows (hb.part (k := 14) (m := 20) (by decide)))
      exact (hip.emitDesc (frameDescriptor_valid h20 hle hz (by omega))).setCode .ok
  · rw [splitOnce_stopped hs] at ht
    cases ht
    exact h.setCode _

theorem State.Inv.dumpRange {s t : State} (h : s.Inv) {a z : Nat} (ht : s.dumpRange params a z = .next t) : t.Inv := by
  obtain ⟨-, rfl⟩ := State.dumpRange_next ht
  exact h.emitText fun _ => hexDump_textCode

theorem State.Inv.runLoop {s t : State} (h : s.Inv) {n : Nat} (ht : runLoop params n s = .next t) : t.Inv :=
  runLoop_rel (R := fun a b => a.Inv → b.Inv) (fun _ _ _ hab hbc ha => hbc (hab ha)) (fun _ _ hab ha => ha.splitOnce hab)
    (fun _ _ hab ha => ha.dumpRange hab) ht h

theorem State.Inv.execPush {s t : State} (h : s.Inv) {d : Nat} (ht : execPush d s = .next t) : t.Inv := by
  rcases execPush_cases ht with ⟨-, rfl⟩ | ⟨-, -, rfl⟩ | ⟨hs, hl, rfl⟩
  · exact h.raise_refusal _
  · exact h.raise_refusal _
  · exact h.append hs hl _

theorem State.Inv.execEth {s t : State} (h : s.Inv) {off : Nat} (ht : execEth off s = .next t) : t.Inv := by
  rcases execEth_cases ht with ⟨-, rfl⟩ | ⟨hb, rfl⟩
  · exact h.raise_ethDecode _
  · exact (h.markSealed.setEth rfl (ethHeaderAt_consistent _ _) (ethHeaderAt_shows hb)).setCode _

theorem State.Inv.execIp4 {s t : State} (h : s.Inv) {off : Nat} (ht : execIp4 off s = .next t) : t.Inv := by
  rcases execIp4_cases ht with ⟨c, -, rfl⟩ | ⟨hb, h20, hle, rfl⟩
  · exact h.raise_ipDecode _
  · exact (h.markSealed.setIp rfl (ipHeaderAt_consistent _ _ _ h20 hle) (ipHeaderAt_shows hb)).setCode _

theorem State.Inv.execDump {s t : State} (h : s.Inv) {a z : Nat} (ht : execDump a z s = .next t) : t.Inv := by
  rcases execDump_cases ht with ⟨-, rfl⟩ | ⟨-, rfl⟩
  · exact h.raise_refusal _
  · exact (h.markSealed.emitText fun _ => hexDump_textCode).setCode _

theorem State.Inv.exec {i : Instr} {s t : State} (h : s.Inv) (ht : exec i s = .next t) : t.Inv := by
  cases i with
  | hexdigit v p => cases ht; exact h.setBfxOut _
  | bindigit v p => cases ht; exact h.setBfxOut _
  | nop => cases ht; exact h
  | clr => cases ht; exact h.clear
  | push d => exact h.execPush ht
  | eth off => exact h.execEth ht
  | ip4 off => exact h.execIp4 ht
  | next => exact h.splitOnce ht
  | run => exact h.runLoop ht
  | dump a z => exact h.execDump ht

/-! ### The ports and the step -/

theorem State.Inv.performInput {x : HostInput} {s t : State} (h : s.Inv) (ht : performInput x s = .next t) : t.Inv := by
  cases x with
  | issue p =>
    simp only [Machine.performInput, performPort] at ht
    split at ht
    · exact h.exec ht
    · cases ht; exact h.raise_refusal _
  | readRegister a =>
    simp only [Machine.performInput, sampleRegister] at ht
    split at ht <;> cases ht
    exact h.setRdData _
  | assertRst => cases ht; exact h.applyRst

/-- Settles O44: the block waits, or takes one input, and each kind of input keeps the invariant. -/
theorem stepKeepsInvariant : Obligations.StepKeepsInvariant := by
  intro s t h ht
  unfold step at ht
  split at ht
  · cases ht; exact h
  · exact (h.setInbox _).performInput ht

/-- Settles O43: the reset state is a cleared one, with an empty buffer and empty histories. -/
theorem resetSatisfiesInvariant : Obligations.ResetSatisfiesInvariant :=
  State.inv_clear (s := State.reset) Memory.wf_nil (fun _ hd => absurd hd List.not_mem_nil)
    (fun _ hc => absurd hc List.not_mem_nil)

end Sys2Proof.Machine
end

section
/-! PROOFS. The frames of the operations: what each leaves alone, and that the histories only grow. -/

namespace Sys2Proof.Machine

/-! ### The two streams of the history -/

@[simp] theorem State.emitDesc_descHistory (s : State) (d : Descriptor) :
    (s.emitDesc d).descHistory = s.descHistory ++ [d] := by simp [State.descHistory, Beat.descriptor?]

@[simp] theorem State.emitDesc_txtHistory (s : State) (d : Descriptor) : (s.emitDesc d).txtHistory = s.txtHistory := by
  simp [State.txtHistory, Beat.code?]

@[simp] theorem State.emitText_txtHistory (s : State) (cs : List Byte) :
    (s.emitText cs).txtHistory = s.txtHistory ++ cs := by
  simp [State.txtHistory, List.filterMap_map, Function.comp_def, Beat.code?]

@[simp] theorem State.emitText_descHistory (s : State) (cs : List Byte) : (s.emitText cs).descHistory = s.descHistory := by
  simp [State.descHistory, List.filterMap_map, Function.comp_def, Beat.descriptor?]

@[simp] theorem State.setCode_descHistory (s : State) (c : Code) : (s.setCode c).descHistory = s.descHistory := rfl

@[simp] theorem State.markSealed_descHistory (s : State) : s.markSealed.descHistory = s.descHistory := rfl

@[simp] theorem State.raise_refusal_descHistory (s : State) (c : Code) :
    (s.raise c .refusal).descHistory = s.descHistory := rfl

/-! ### NEXT, RUN and the dumps between their iterations -/

/-- What iterations of the splitter and dumps leave alone, what they append to and what they never clear. -/
structure SplitterFrame (s t : State) : Prop where
  buf : t.buf = s.buf
  len : t.len = s.len
  bfxOut : t.bfxOut = s.bfxOut
  rdData : t.rdData = s.rdData
  inbox : t.inbox = s.inbox
  out : s.out <+: t.out
  sealed : s.sealed = true → t.sealed = true

theorem SplitterFrame.trans {s t u : State} (h : SplitterFrame s t) (k : SplitterFrame t u) : SplitterFrame s u where
  buf := k.buf.trans h.buf
  len := k.len.trans h.len
  bfxOut := k.bfxOut.trans h.bfxOut
  rdData := k.rdData.trans h.rdData
  inbox := k.inbox.trans h.inbox
  out := h.out.trans k.out
  sealed hs := k.sealed (h.sealed hs)

theorem splitOnce_frame {p : Config.Params} {s t : State} (h : splitOnce p s = .next t) : SplitterFrame s t := by
  rcases splitOnce_outcomes h with ⟨r, -, rfl⟩ | ⟨r, rfl⟩ | ⟨e, i, z, rfl⟩ <;> constructor <;> simp

theorem dumpRange_frame {p : Config.Params} {a z : Nat} {s t : State} (h : s.dumpRange p a z = .next t) :
    SplitterFrame s t := by
  obtain ⟨-, rfl⟩ := State.dumpRange_next h
  constructor <;> simp

theorem runLoop_frame {p : Config.Params} {n : Nat} {s t : State} (h : runLoop p n s = .next t) : SplitterFrame s t :=
  runLoop_rel (R := SplitterFrame) (fun _ _ _ => SplitterFrame.trans) (fun _ _ => splitOnce_frame)
    (fun _ _ => dumpRange_frame) h

/-- One iteration appends no text. -/
theorem splitOnce_txtHistory {p : Config.Params} {s t : State} (h : splitOnce p s = .next t) :
    t.txtHistory = s.txtHistory := by
  rcases splitOnce_outcomes h with ⟨r, -, rfl⟩ | ⟨r, rfl⟩ | ⟨e, i, z, rfl⟩
  · rfl
  · rfl
  · exact s.emitDesc_txtHistory _

/-! ### What each operation leaves alone -/

/-- Settles O47, operation by operation. -/
theorem whoWritesWhat : Obligations.WhoWritesWhat := by
  intro i s t h
  cases i with
  | hexdigit v p => cases h; simp [State.descHistory, State.txtHistory]
  | bindigit v p => cases h; simp [State.descHistory, State.txtHistory]
  | nop => cases h; simp
  | clr => cases h; simp [State.descHistory, State.txtHistory]
  | push d => rcases execPush_cases h with ⟨-, rfl⟩ | ⟨-, -, rfl⟩ | ⟨-, -, rfl⟩ <;> simp [State.descHistory, State.txtHistory]
  | eth off => rcases execEth_cases h with ⟨-, rfl⟩ | ⟨-, rfl⟩ <;> simp [State.descHistory, State.txtHistory]
  | ip4 off => rcases execIp4_cases h with ⟨c, -, rfl⟩ | ⟨-, -, -, rfl⟩ <;> simp [State.descHistory, State.txtHistory]
  | next =>
    have hf := splitOnce_frame h
    simp [hf.buf, hf.len, hf.bfxOut, hf.rdData, hf.inbox, splitOnce_txtHistory h]
  | run =>
    have hf := runLoop_frame h
    simp [hf.buf, hf.len, hf.bfxOut, hf.rdData, hf.inbox]
  | dump a z => rcases execDump_cases h with ⟨-, rfl⟩ | ⟨-, rfl⟩ <;> simp

/-- Every operation appends to the event history. -/
theorem exec_out_prefix {i : Instr} {s t : State} (h : exec i s = .next t) : s.out <+: t.out := by
  cases i with
  | hexdigit v p => cases h; exact List.prefix_rfl
  | bindigit v p => cases h; exact List.prefix_rfl
  | nop => cases h; exact List.prefix_rfl
  | clr => cases h; exact List.prefix_rfl
  | push d => rcases execPush_cases h with ⟨-, rfl⟩ | ⟨-, -, rfl⟩ | ⟨-, -, rfl⟩ <;> exact List.prefix_rfl
  | eth off => rcases execEth_cases h with ⟨-, rfl⟩ | ⟨-, rfl⟩ <;> exact List.prefix_rfl
  | ip4 off => rcases execIp4_cases h with ⟨c, -, rfl⟩ | ⟨-, -, -, rfl⟩ <;> exact List.prefix_rfl
  | next => exact (splitOnce_frame h).out
  | run => exact (runLoop_frame h).out
  | dump a z =>
    rcases execDump_cases h with ⟨-, rfl⟩ | ⟨-, rfl⟩
    · exact List.prefix_rfl
    · exact List.prefix_append _ _

/-- Settles O52: both streams are filtered out of the one list that only grows. -/
theorem historiesOnlyGrow : Obligations.HistoriesOnlyGrow := by
  refine ⟨fun i s t h => ?_, fun s d => ⟨s.emitDesc_descHistory d, s.emitDesc_txtHistory d⟩,
    fun s cs => ⟨s.emitText_txtHistory cs, s.emitText_descHistory cs⟩⟩
  have hout := exec_out_prefix h
  exact ⟨hout, hout.filterMap _, hout.filterMap _⟩

/-! ### The seal -/

/-- An iteration from a state of the invariant leaves the buffer sealed: a splitter that has stopped had sealed it. -/
theorem splitOnce_sealed {p : Config.Params} {s t : State} (hi : s.Inv) (h : splitOnce p s = .next t) :
    t.sealed = true := by
  rcases splitOnce_outcomes h with ⟨r, hr, rfl⟩ | ⟨r, rfl⟩ | ⟨e, i, z, rfl⟩
  · by_contra hs
    obtain ⟨-, hstop, -⟩ := hi.unsealed (by simpa using hs)
    simp [hr] at hstop
  · rfl
  · rfl

/-- A RUN seals with its first iteration, and what follows it keeps the seal. -/
theorem runLoop_sealed {p : Config.Params} {n : Nat} {s t : State} (hi : s.Inv) (h : runLoop p (n + 1) s = .next t) :
    t.sealed = true := by
  rcases runLoop_next h with ⟨ht, -⟩ | ⟨u, v, hu, -, hv, ht⟩
  · exact splitOnce_sealed hi ht
  · exact (runLoop_frame ht).sealed ((dumpRange_frame hv).sealed (splitOnce_sealed hi hu))

/-- Every operation but CLR keeps the seal. -/
theorem exec_keeps_seal {i : Instr} {s t : State} (hs : s.sealed = true) (hc : i ≠ .clr) (h : exec i s = .next t) :
    t.sealed = true := by
  cases i with
  | hexdigit v p => cases h; exact hs
  | bindigit v p => cases h; exact hs
  | nop => cases h; exact hs
  | clr => exact absurd rfl hc
  | push d => rcases execPush_cases h with ⟨-, rfl⟩ | ⟨-, -, rfl⟩ | ⟨-, -, rfl⟩ <;> exact hs
  | eth off => rcases execEth_cases h with ⟨-, rfl⟩ | ⟨-, rfl⟩ <;> rfl
  | ip4 off => rcases execIp4_cases h with ⟨c, -, rfl⟩ | ⟨-, -, -, rfl⟩ <;> rfl
  | next => exact (splitOnce_frame h).sealed hs
  | run => exact (runLoop_frame h).sealed hs
  | dump a z =>
    rcases execDump_cases h with ⟨-, rfl⟩ | ⟨-, rfl⟩
    · exact hs
    · rfl

/-- A command that reads the buffer leaves it sealed (R28). -/
theorem exec_seals {i : Instr} {s t : State} (hi : s.Inv) (h : exec i s = .next t)
    (hr : i = .next ∨ i = .run ∨ (∃ a, i = .eth a) ∨ (∃ a, i = .ip4 a) ∨ (t.code = .ok ∧ ∃ a z, i = .dump a z)) :
    t.sealed = true := by
  rcases hr with rfl | rfl | ⟨a, rfl⟩ | ⟨a, rfl⟩ | ⟨hok, a, z, rfl⟩
  · exact splitOnce_sealed hi h
  · exact runLoop_sealed hi h
  · rcases execEth_cases h with ⟨-, rfl⟩ | ⟨-, rfl⟩ <;> rfl
  · rcases execIp4_cases h with ⟨c, -, rfl⟩ | ⟨-, -, -, rfl⟩ <;> rfl
  · rcases execDump_cases h with ⟨-, rfl⟩ | ⟨-, rfl⟩
    · cases hok
    · rfl

/-- `BUF` and `LEN` change under PUSH and CLR alone, and a sealed buffer refuses the PUSH. -/
theorem exec_keeps_sealed_buffer {i : Instr} {s t : State} (hs : s.sealed = true) (hc : i ≠ .clr)
    (h : exec i s = .next t) : t.len = s.len ∧ t.buf = s.buf := by
  by_cases hp : ∃ d, i = .push d
  · obtain ⟨d, rfl⟩ := hp
    rcases execPush_cases h with ⟨-, rfl⟩ | ⟨hu, -⟩ | ⟨hu, -⟩
    · exact ⟨rfl, rfl⟩
    · rw [hs] at hu; cases hu
    · rw [hs] at hu; cases hu
  · have hp : ∀ d, i ≠ .push d := fun d hd => hp ⟨d, hd⟩
    obtain ⟨hbuf, hlen, -⟩ := whoWritesWhat i s t h
    exact ⟨hlen hp hc, hbuf hp⟩

/-- Settles O53: the commands that read the buffer are none of the two that write it. -/
theorem sealedBufferIsImmutable : Obligations.SealedBufferIsImmutable := by
  refine ⟨fun i s t hi h hr => ?_, fun i s t hs hc h => ?_⟩
  · obtain ⟨hbuf, hlen, -⟩ := whoWritesWhat i s t h
    have hp : ∀ d, i ≠ .push d := by rintro d rfl; simp at hr
    have hc : i ≠ .clr := by rintro rfl; simp at hr
    exact ⟨exec_seals hi h hr, hlen hp hc, hbuf hp⟩
  · obtain ⟨hlen, hbuf⟩ := exec_keeps_sealed_buffer hs hc h
    exact ⟨hlen, hbuf, exec_keeps_seal hs hc h⟩

end Sys2Proof.Machine
end

section
/-! PROOFS. The read port: a register word is the concatenation of its fields, so each address shows the fields R33
places there, and after a decode the bytes of the buffer. -/

namespace Sys2Proof.Machine

/-! ### Words made of fields -/

/-- A field that is two fields side by side is the sum of the two at their own places. -/
theorem fieldAt_append {n m : Nat} (lo : Nat) (x : BitVec n) (y : BitVec m) :
    fieldAt lo (x ++ y) = fieldAt (lo + m) x + fieldAt lo y := by
  rw [fieldAt, BitVec.toNat_append, ← Nat.shiftLeft_add_eq_or_of_lt y.isLt, Nat.shiftLeft_eq, fieldAt, fieldAt, Nat.pow_add]
  ring

@[simp] theorem fieldAt_zero (lo n : Nat) : fieldAt lo 0#n = 0 := by simp [fieldAt]

/-- A word whose fields add up to those of `x` is `x`. -/
theorem registerWord_eq {fields : Nat} {x : Word} (h : fields = fieldAt 0 x) : registerWord fields = x := by
  rw [h, registerWord, fieldAt, Nat.pow_zero, Nat.mul_one, BitVec.ofNat_toNat, BitVec.setWidth_eq]

theorem Mac.highWord_eq (m : Mac) : m.highWord = 0#16 ++ m.o0 ++ m.o1 :=
  registerWord_eq (by simp [↓fieldAt_append])

theorem Mac.lowWord_eq (m : Mac) : m.lowWord = m.o2 ++ m.o3 ++ m.o4 ++ m.o5 :=
  registerWord_eq (by simp [↓fieldAt_append])

theorem IpAddr.word_eq (a : IpAddr) : a.word = a.o0 ++ a.o1 ++ a.o2 ++ a.o3 :=
  registerWord_eq (by simp [↓fieldAt_append])

theorem EthHeader.typeWord_eq (h : EthHeader) : h.typeWord = 0#14 ++ h.cls.bits ++ h.et0 ++ h.et1 :=
  registerWord_eq (by simp [↓fieldAt_append]; omega)

theorem IpHeader.vhlWord_eq (h : IpHeader) :
    h.vhlWord = 0#15 ++ BitVec.ofBool h.opt ++ 0#2 ++ h.hlen ++ h.ver ++ h.ihl :=
  registerWord_eq (by simp [↓fieldAt_append, flagAt]; omega)

theorem IpHeader.tosWord_eq (h : IpHeader) :
    h.tosWord = 0#16 ++ h.trsv ++ BitVec.ofBool h.reli ++ BitVec.ofBool h.thru ++ BitVec.ofBool h.delay ++ h.prec ++ h.tos :=
  registerWord_eq (by simp [↓fieldAt_append, flagAt]; omega)

theorem IpHeader.fragWord_eq (h : IpHeader) :
    h.fragWord = 0#16 ++ BitVec.ofBool h.frsv ++ BitVec.ofBool h.df ++ BitVec.ofBool h.mf ++ h.foff :=
  registerWord_eq (by simp [↓fieldAt_append, flagAt]; omega)

theorem IpHeader.ttlpWord_eq (h : IpHeader) : h.ttlpWord = 0#14 ++ h.pclass.bits ++ h.proto ++ h.ttl :=
  registerWord_eq (by simp [↓fieldAt_append]; omega)

theorem IpHeader.csumWord_eq (h : IpHeader) : h.csumWord = 0#16 ++ h.csum0 ++ h.csum1 :=
  registerWord_eq (by simp [↓fieldAt_append])

theorem IpHeader.endWord_eq (h : IpHeader) : h.endWord = 0#3 ++ h.hend ++ h.pend :=
  registerWord_eq (by simp [↓fieldAt_append]; omega)

theorem State.statusWord_eq (s : State) :
    s.statusWord = 0#20 ++ BitVec.ofBool s.ivalid ++ BitVec.ofBool s.evalid ++ BitVec.ofBool s.sealed
      ++ BitVec.ofBool s.stopped ++ s.stopcode ++ s.code.bits :=
  registerWord_eq (by simp [↓fieldAt_append, flagAt]; omega)

theorem State.stopcode_eq_zero_iff (s : State) : s.stopcode = 0#4 ↔ s.stopReason = none := by
  rcases hs : s.stopReason with _ | r
  · simp [State.stopcode, hs]
  · cases r <;> simp [State.stopcode, hs, StopReason.code, Code.bits]

/-! ### The fields of a word -/

/-- Settles O28: the word is the concatenation of its fields. -/
theorem statusWordFields : Obligations.StatusWordFields := by
  intro s
  rw [s.statusWord_eq]
  refine ⟨?_, ?_, ?_, ?_, ?_, ?_, ?_, s.stopcode_eq_zero_iff⟩
  · rw [BitVec.extractLsb'_append_eq_right]
  · rw [BitVec.extractLsb'_append_eq_of_le (by decide), BitVec.extractLsb'_append_eq_right]
  · simp only [BitVec.getLsbD_append]
    simp [State.stopped]
  · simp only [BitVec.getLsbD_append]
    simp
  · simp only [BitVec.getLsbD_append]
    simp [State.evalid]
  · simp only [BitVec.getLsbD_append]
    simp [State.ivalid]
  · iterate 6 rw [BitVec.extractLsb'_append_eq_of_le (by decide)]
    rfl

/-! ### The addresses -/

/-- A register of a group that holds a value reads as the word the map makes of that value. -/
theorem State.readRegister_of_group {α : Type} {s : State} {a : BitVec 6} {g : Option α} {f : α → Word} {h : α} {w : Word}
    (hg : g = some h) (ha : s.readRegister a = g.map f) (hw : f h = w) : s.readRegister a = some w := by
  rw [ha, hg, Option.map_some, hw]

/-- Settles O30, register by register. -/
theorem readPortMap : Obligations.ReadPortMap := by
  refine ⟨fun s => ⟨rfl, ?_, ?_, ?_, ?_⟩, fun s e he => ?_, fun s h hi => ?_, rfl, rfl, rfl, rfl, rfl, rfl⟩
  · exact congrArg some (registerWord_eq (by simp [↓fieldAt_append]))
  · exact congrArg some (registerWord_eq (by simp [↓fieldAt_append]))
  · exact congrArg some (registerWord_eq (by simp [↓fieldAt_append]))
  · exact congrArg some (registerWord_eq (by simp [↓fieldAt_append, Nat.add_comm]))
  · exact ⟨State.readRegister_of_group he rfl e.dmac.highWord_eq, State.readRegister_of_group he rfl e.dmac.lowWord_eq,
      State.readRegister_of_group he rfl e.smac.highWord_eq, State.readRegister_of_group he rfl e.smac.lowWord_eq,
      State.readRegister_of_group he rfl e.typeWord_eq⟩
  · exact ⟨State.readRegister_of_group hi rfl h.vhlWord_eq, State.readRegister_of_group hi rfl h.tosWord_eq,
      State.readRegister_of_group hi rfl (registerWord_eq (by simp [↓fieldAt_append])),
      State.readRegister_of_group hi rfl (registerWord_eq (by simp [↓fieldAt_append])),
      State.readRegister_of_group hi rfl (registerWord_eq (by simp [↓fieldAt_append])),
      State.readRegister_of_group hi rfl h.fragWord_eq, State.readRegister_of_group hi rfl h.ttlpWord_eq,
      State.readRegister_of_group hi rfl h.csumWord_eq, State.readRegister_of_group hi rfl h.src.word_eq,
      State.readRegister_of_group hi rfl h.dst.word_eq, State.readRegister_of_group hi rfl h.endWord_eq⟩

/-- Settles O31, address by address of the three gaps: each falls to the last arm of the map. -/
theorem unlistedAddressesReadZero : Obligations.UnlistedAddressesReadZero := by
  intro s a ha
  have hlt : a.toNat < 64 := a.isLt
  unfold State.readRegister
  generalize a.toNat = n at ha hlt ⊢
  rcases ha with ⟨hlo, hhi⟩ | ⟨hlo, hhi⟩ | hlo <;> interval_cases n <;> rfl

/-! ### After a decode -/

/-- An IP4 of bytes the buffer holds, when it reports 0, leaves in the I group the header those bytes are. -/
theorem execIp4_ok {s t : State} {off : Nat} {b : Nat → Byte} (hb : s.Holds off 20 b) (h : execIp4 off s = .next t)
    (hok : t.code = .ok) : ∃ i, t.ip = some i ∧ IpHeaderOf b off i := by
  rcases execIp4_cases h with ⟨c, hc, rfl⟩ | ⟨-, -, -, rfl⟩
  · rcases hc with rfl | rfl | rfl <;> cases hok
  · exact ⟨_, rfl, ipHeaderAt_spec hb⟩

/-- An ETH of bytes the buffer holds, when it reports 0, leaves in the E group the header those bytes are. -/
theorem execEth_ok {s t : State} {off : Nat} {b : Nat → Byte} (hb : s.Holds off 14 b) (h : execEth off s = .next t)
    (hok : t.code = .ok) : ∃ e, t.eth = some e ∧ EthHeaderOf b e := by
  rcases execEth_cases h with ⟨-, rfl⟩ | ⟨-, rfl⟩
  · cases hok
  · exact ⟨_, rfl, ethHeaderAt_spec hb⟩

/-- A word whose fields make the number of two bytes shows the two bytes, the first the more significant (R34, R61). -/
theorem registerWord_two_bytes {fields : Nat} {x y : Byte} (h : fields = 256 * x.toNat + y.toNat) :
    registerWord fields = 0#16 ++ x ++ y :=
  registerWord_eq (by simp [↓fieldAt_append, fieldAt, h, Nat.mul_comm])

/-- The fields of I_FRAG put together again are the number of the two bytes they were cut from. -/
theorem IpHeaderOf.fragWord_eq {b : Nat → Byte} {off : Nat} {i : IpHeader} (h : IpHeaderOf b off i) :
    i.fragWord = 0#16 ++ b 6 ++ b 7 := by
  refine registerWord_two_bytes ?_
  rw [h.fragWord]
  simp only [flagAt, fieldAt, BitVec.toNat_ofBool]
  omega

/-- The lower two of three parts of a word. -/
theorem extractLsb'_low_append {n m l : Nat} (x : BitVec n) (y : BitVec m) (z : BitVec l) :
    (x ++ y ++ z).extractLsb' 0 (m + l) = y ++ z := by
  ext k hk
  by_cases hkl : k < l
  · simp [BitVec.getLsbD_append, BitVec.getElem_append, hkl]
  · simp [BitVec.getLsbD_append, BitVec.getElem_append, hkl, show k - l < m by omega]

/-- Settles O33: each register shows the fields of the header the bytes are. -/
theorem packedRegistersShowBufferBytes : Obligations.PackedRegistersShowBufferBytes := by
  refine ⟨fun s t off b hb h hok => ?_, fun s t off b hb h hok => ?_⟩
  · obtain ⟨i, hi, hof⟩ := execIp4_ok hb h hok
    have hfrag := hof.fragWord_eq
    obtain ⟨-, -, -, -, -, -, -, -, -, htlen, -, hident, -, -, -, -, -, -, -, hc0, hc1, hsrc, hdst, -⟩ := hof
    refine ⟨State.readRegister_of_group hi rfl (registerWord_two_bytes ?_),
      State.readRegister_of_group hi rfl (registerWord_two_bytes ?_), State.readRegister_of_group hi rfl hfrag,
      State.readRegister_of_group hi rfl ?_, State.readRegister_of_group hi rfl ?_,
      State.readRegister_of_group hi rfl ?_⟩
    · simp [fieldAt, htlen, tlenOf]
    · simp [fieldAt, hident]
    · rw [i.csumWord_eq, hc0, hc1]
    · rw [hsrc, IpAddr.word_eq]
    · rw [hdst, IpAddr.word_eq]
  · obtain ⟨e, he, hdmac, hsmac, h0, h1, -⟩ := execEth_ok hb h hok
    refine ⟨_, State.readRegister_of_group he rfl e.typeWord_eq, ?_, State.readRegister_of_group he rfl ?_,
      State.readRegister_of_group he rfl ?_, State.readRegister_of_group he rfl ?_,
      State.readRegister_of_group he rfl ?_⟩
    · rw [h0, h1]
      exact extractLsb'_low_append _ _ _
    · rw [hdmac, Mac.highWord_eq]
    · rw [hdmac, Mac.lowWord_eq]
    · rw [hsmac, Mac.highWord_eq]
    · rw [hsmac, Mac.lowWord_eq]

/-! ### The registers after CLR and reset -/

theorem State.reset_statusWord : State.reset.statusWord = 0#32 := by decide

/-- The word is made of fields that CLR leaves as after reset. -/
theorem State.clear_statusWord (s : State) : s.clear.statusWord = 0#32 := by
  have hreset : s.clear.statusWord = State.reset.statusWord := rfl
  rw [hreset, State.reset_statusWord]

/-- Settles O5: every clause is about registers that `State.clear` sets to constants, or leaves. -/
theorem clrGivesResetRegisters : Obligations.ClrGivesResetRegisters :=
  fun s => ⟨s.clear, rfl, rfl, rfl, rfl, s.clear_statusWord, rfl⟩

/-- Settles O34. -/
theorem resetValues : Obligations.ResetValues :=
  ⟨rfl, rfl, rfl, rfl, rfl, State.reset_statusWord, rfl, rfl, rfl, rfl, rfl, rfl⟩

/-! ### The step -/

/-- With an operation at the ports, the step is what the block does with that operation. -/
theorem step_issue {s : State} {p : PortWord} {rest : List HostInput} (h : s.inbox = .issue p :: rest) :
    step s = performPort p (s.setInbox rest) := by
  simp only [step, h, performInput]

theorem performPort_ok {p : PortWord} {i : Instr} (h : decodePort p = .ok i) (s : State) : performPort p s = exec i s := by
  simp only [performPort, h]

theorem performPort_error {p : PortWord} {e : Illegal} (h : decodePort p = .error e) (s : State) :
    performPort p s = .next (s.raise .illegalCommand .refusal) := by
  simp only [performPort, h]

/-- Settles O36: the operation at the ports is decoded and run, or refused. -/
theorem stepRunsDecodedInstruction : Obligations.StepRunsDecodedInstruction :=
  ⟨fun _ _ _ _ hin hp => (step_issue hin).trans (performPort_ok hp _),
    fun _ _ _ _ hin hp => (step_issue hin).trans (performPort_error hp _)⟩

end Sys2Proof.Machine
end

section
/-! PROOFS. What the cells at or above `LEN` hold is never observed (R66, U2): each check, each read and each update treats
two states that agree below `LEN` alike, so each operation does. -/

namespace Sys2Proof.Machine

/-! ### Two states that agree below `LEN` -/

section
variable {s t : State}

/-- Such states agree in whatever is computed from the registers alone. -/
theorem SameBelowLen.register {α : Sort _} (h : SameBelowLen s t) (f : State → α)
    (hf : ∀ m, f { s with buf := m } = f s) : f t = f s := (congrArg f h.1).trans (hf t.buf)

theorem SameBelowLen.len (h : SameBelowLen s t) : t.len = s.len := h.register State.len fun _ => rfl

theorem SameBelowLen.cur (h : SameBelowLen s t) : t.cur = s.cur := h.register State.cur fun _ => rfl

theorem SameBelowLen.fstart (h : SameBelowLen s t) : t.fstart = s.fstart := h.register State.fstart fun _ => rfl

theorem SameBelowLen.fend (h : SameBelowLen s t) : t.fend = s.fend := h.register State.fend fun _ => rfl

theorem SameBelowLen.code (h : SameBelowLen s t) : t.code = s.code := h.register State.code fun _ => rfl

theorem SameBelowLen.stopReason (h : SameBelowLen s t) : t.stopReason = s.stopReason :=
  h.register State.stopReason fun _ => rfl

theorem SameBelowLen.sealed (h : SameBelowLen s t) : t.sealed = s.sealed := h.register State.sealed fun _ => rfl

theorem SameBelowLen.short (h : SameBelowLen s t) (off n : Nat) : t.short off n = s.short off n :=
  h.register (·.short off n) fun _ => rfl

theorem SameBelowLen.rangeLegal (h : SameBelowLen s t) (a z : Nat) : t.rangeLegal a z = s.rangeLegal a z :=
  h.register (·.rangeLegal a z) fun _ => rfl

theorem SameBelowLen.shortStop (h : SameBelowLen s t) : t.shortStop = s.shortStop :=
  h.register State.shortStop fun _ => rfl

/-- The engine reads below `LEN` alone, so it reads the same in both. -/
theorem SameBelowLen.bufRead (h : SameBelowLen s t) (a : Nat) : t.bufRead a = s.bufRead a := by
  unfold State.bufRead
  rw [h.len]
  split
  · next ha => exact (h.2 a ha).symm
  · rfl

theorem SameBelowLen.byteAt (h : SameBelowLen s t) : t.byteAt = s.byteAt := State.byteAt_congr h.bufRead

theorem SameBelowLen.readable (h : SameBelowLen s t) (a n : Nat) : t.readable a n = s.readable a n :=
  State.readable_congr h.bufRead a n

theorem SameBelowLen.bytes (h : SameBelowLen s t) (a z : Nat) : t.bytes a z = s.bytes a z :=
  State.bytes_congr h.bufRead a z

/-- An update that neither reads nor writes `BUF` and does not raise `LEN` keeps the agreement. -/
theorem SameBelowLen.update (h : SameBelowLen s t) (f : State → State)
    (hbuf : ∀ m, f { s with buf := m } = { f s with buf := m }) (hlen : (f s).len.toNat ≤ s.len.toNat) :
    SameBelowLen (f s) (f t) := by
  have ht : f t = { f s with buf := t.buf } := (congrArg f h.1).trans (hbuf t.buf)
  have hs : (f s).buf = s.buf := (congrArg State.buf (hbuf s.buf)).trans rfl
  have ht' : (f t).buf = t.buf := (congrArg State.buf ht).trans rfl
  refine ⟨by rw [ht']; exact ht, fun a ha => ?_⟩
  rw [hs, ht']
  exact h.2 a (Nat.lt_of_lt_of_le ha hlen)

theorem SameBelowLen.setCode (h : SameBelowLen s t) (c : Code) : SameBelowLen (s.setCode c) (t.setCode c) :=
  h.update (·.setCode c) (fun _ => rfl) (Nat.le_refl _)

theorem SameBelowLen.setBfxOut (h : SameBelowLen s t) (x : BitVec 4) : SameBelowLen (s.setBfxOut x) (t.setBfxOut x) :=
  h.update (·.setBfxOut x) (fun _ => rfl) (Nat.le_refl _)

theorem SameBelowLen.markSealed (h : SameBelowLen s t) : SameBelowLen s.markSealed t.markSealed :=
  h.update State.markSealed (fun _ => rfl) (Nat.le_refl _)

theorem SameBelowLen.setEth (h : SameBelowLen s t) (e : EthHeader) : SameBelowLen (s.setEth e) (t.setEth e) :=
  h.update (·.setEth e) (fun _ => rfl) (Nat.le_refl _)

theorem SameBelowLen.setIp (h : SameBelowLen s t) (i : IpHeader) : SameBelowLen (s.setIp i) (t.setIp i) :=
  h.update (·.setIp i) (fun _ => rfl) (Nat.le_refl _)

theorem SameBelowLen.emitText (h : SameBelowLen s t) (cs : List Byte) : SameBelowLen (s.emitText cs) (t.emitText cs) :=
  h.update (·.emitText cs) (fun _ => rfl) (Nat.le_refl _)

theorem SameBelowLen.emitFrame (h : SameBelowLen s t) (e : EthHeader) (i : IpHeader) (z : Nat) :
    SameBelowLen (s.emitFrame e i z) (t.emitFrame e i z) :=
  h.update (·.emitFrame e i z) (fun _ => rfl) (Nat.le_refl _)

theorem SameBelowLen.raise (h : SameBelowLen s t) (c : Code) (e : Ending) : SameBelowLen (s.raise c e) (t.raise c e) :=
  h.update (·.raise c e) (fun _ => by cases e <;> rfl) (by cases e <;> exact Nat.le_refl _)

theorem SameBelowLen.stopWith (h : SameBelowLen s t) (r : StopReason) : SameBelowLen (s.stopWith r) (t.stopWith r) :=
  h.raise r.code (.splitter r)

theorem SameBelowLen.clear (h : SameBelowLen s t) : SameBelowLen s.clear t.clear :=
  h.update State.clear (fun _ => rfl) (Nat.zero_le _)

/-- The one update that raises `LEN` writes the cell it uncovers. -/
theorem SameBelowLen.append (h : SameBelowLen s t) (hl : s.len.toNat < 1024) (v : Byte) :
    SameBelowLen { s with buf := Memory.write s.buf s.len.toNat v, len := s.len + 1#11, code := .ok }
      { t with buf := Memory.write t.buf t.len.toNat v, len := t.len + 1#11, code := .ok } := by
  have hlen : (s.len + 1#11).toNat = s.len.toNat + 1 := by
    rw [BitVec.toNat_add_of_lt] <;> simp; omega
  constructor
  · rw [h.len, h.1]
  · intro a ha
    simp only [hlen] at ha
    rw [h.len, Memory.read_write, Memory.read_write]
    split
    · rfl
    · exact h.2 a (by omega)

end

/-! ### Two outcomes alike -/

theorem SameOutcome.next {s t : State} (h : SameBelowLen s t) : SameOutcome (.next s) (.next t) :=
  .inl ⟨s, t, rfl, rfl, h⟩

theorem SameOutcome.fault (f : Fault) : SameOutcome (.fault f) (.fault f) := .inr ⟨f, rfl, rfl⟩

/-- Sequencing keeps outcomes alike when the continuation does. -/
theorem SameOutcome.andThen {o p : Result} {k k' : State → Result} (h : SameOutcome o p)
    (hk : ∀ s t, SameBelowLen s t → SameOutcome (k s) (k' t)) : SameOutcome (andThen o k) (andThen p k') := by
  rcases h with ⟨s, t, rfl, rfl, hst⟩ | ⟨f, rfl, rfl⟩
  · exact hk s t hst
  · exact .fault f

/-! ### The operations -/

/-- PUSH, in one equation: refused sealed, refused full, the byte stored at `LEN`, or no cell at `LEN` (R213, R243). -/
theorem execPush_eq (d : Nat) (s : State) :
    execPush d s =
      if s.sealed then .next (s.raise .illegalCommand .refusal)
      else if s.len.toNat = 1024 then .next (s.raise .bufferFull .refusal)
      else if s.len.toNat < 1024 then
        .next { s with buf := Memory.write s.buf s.len.toNat (toByte d), len := s.len + 1#11, code := .ok }
      else .fault .noSuchCell := by
  unfold execPush State.memWrite Config.bufSize
  by_cases hl : s.len.toNat < 1024
  · simp only [hl, if_true, andThen_next]; rfl
  · simp only [hl, if_false, andThen_fault]

section
variable {s t : State}

theorem SameBelowLen.execPush (h : SameBelowLen s t) (d : Nat) : SameOutcome (execPush d s) (execPush d t) := by
  rw [execPush_eq d s, execPush_eq d t, h.sealed, h.len]
  split
  · exact .next (h.raise _ _)
  · split
    · exact .next (h.raise _ _)
    · split
      · next hl =>
        have happ := h.append hl (toByte d)
        rw [h.sealed, h.len] at happ
        exact .next happ
      · exact .fault _

theorem SameBelowLen.execEth (h : SameBelowLen s t) (off : Nat) : SameOutcome (execEth off s) (execEth off t) := by
  simp only [Machine.execEth, h.short, h.readable, h.byteAt]
  split
  · exact .next (h.raise _ _)
  · split
    · exact .next ((h.markSealed.setEth _).setCode _)
    · exact .fault _

theorem SameBelowLen.execIp4 (h : SameBelowLen s t) (off : Nat) : SameOutcome (execIp4 off s) (execIp4 off t) := by
  simp only [Machine.execIp4, h.short, h.readable, h.byteAt]
  split
  · exact .next (h.raise _ _)
  · split
    · rcases decodeIpAt params.tosMap s.byteAt off with c | i
      · exact .next (h.raise _ _)
      · exact .next ((h.markSealed.setIp i).setCode _)
    · exact .fault _

theorem SameBelowLen.dumpRange (h : SameBelowLen s t) (p : Config.Params) (a z : Nat) :
    SameOutcome (s.dumpRange p a z) (t.dumpRange p a z) := by
  simp only [State.dumpRange, h.readable, h.bytes]
  split
  · exact .next (h.emitText _)
  · exact .fault _

theorem SameBelowLen.execDump (h : SameBelowLen s t) (a z : Nat) : SameOutcome (execDump a z s) (execDump a z t) := by
  simp only [Machine.execDump, h.rangeLegal]
  split
  · exact (h.markSealed.dumpRange params a z).andThen fun _ _ hd => .next (hd.setCode _)
  · exact .next (h.raise _ _)

theorem SameBelowLen.splitOnce (h : SameBelowLen s t) (p : Config.Params) :
    SameOutcome (splitOnce p s) (splitOnce p t) := by
  simp only [Machine.splitOnce, h.stopReason, h.cur, h.len, h.short, h.shortStop, h.readable, h.byteAt]
  rcases s.stopReason with _ | r
  · dsimp only
    split
    · exact .next (h.stopWith _)
    · split
      · rcases decodeIpAt p.tosMap s.byteAt (s.cur.toNat + Config.ethLen) with c | i
        · exact .next (h.stopWith _)
        · dsimp only
          split
          · exact .next (h.stopWith _)
          · exact .next (h.emitFrame _ _ _)
      · exact .fault _
  · exact .next (h.setCode _)

/-- The loop of RUN: both states end with the same iteration, because they report the same code and dump the same range. -/
theorem SameBelowLen.runLoop (h : SameBelowLen s t) (p : Config.Params) (n : Nat) :
    SameOutcome (runLoop p n s) (runLoop p n t) := by
  induction n generalizing s t with
  | zero => exact .fault _
  | succ n ih =>
    rw [runLoop_succ, runLoop_succ]
    refine (h.splitOnce p).andThen fun u v huv => ?_
    rw [huv.code, huv.fstart, huv.fend]
    split
    · exact (huv.dumpRange p _ _).andThen fun _ _ => ih
    · exact .next huv

end

/-- Settles O54, operation by operation. -/
theorem cellsAboveLenUnobservable : Obligations.CellsAboveLenUnobservable := by
  intro i s t h
  cases i with
  | hexdigit v p => exact .next (h.setBfxOut _)
  | bindigit v p => exact .next (h.setBfxOut _)
  | nop => exact .next h
  | clr => exact .next h.clear
  | push d => exact h.execPush d
  | eth off => exact h.execEth off
  | ip4 off => exact h.execIp4 off
  | next => exact h.splitOnce params
  | run => exact h.runLoop params _
  | dump a z => exact h.execDump a z

end Sys2Proof.Machine
end

section
/-! PROOFS. Every operation completes from a state of the invariant: every read is of a loaded cell (R66), and RUN ends
within its bound, because each frame moves the cursor by at least 34 in a buffer of at most 1024 bytes (R172, R281). -/

namespace Sys2Proof.Machine

theorem Completes.next (s : State) : Completes (.next s) := ⟨s, rfl⟩

/-- A sequence completes when its first part does and the rest does from where that ends. -/
theorem Completes.andThen {o : Result} {k : State → Result} (h : Completes o)
    (hk : ∀ t, o = .next t → Completes (k t)) : Completes (andThen o k) := by
  obtain ⟨t, rfl⟩ := h
  exact hk t rfl

section
variable {s : State}

theorem State.Inv.readable (h : s.Inv) {a n : Nat} (hn : a + n ≤ s.len.toNat) : s.readable a n = true :=
  State.readable_of_loaded h.loaded hn

theorem State.Inv.execPush_completes (h : s.Inv) (d : Nat) : Completes (Machine.execPush d s) := by
  have hlen := h.lenBound
  rw [execPush_eq]
  split
  · exact .next _
  · split
    · exact .next _
    · rw [if_pos (by omega)]
      exact .next _

theorem State.Inv.execEth_completes (h : s.Inv) (off : Nat) : Completes (Machine.execEth off s) := by
  unfold Machine.execEth
  split
  · exact .next _
  · next hs =>
    rw [if_pos (h.readable (State.short_false_iff.1 (by simpa using hs)))]
    exact .next _

theorem State.Inv.execIp4_completes (h : s.Inv) (off : Nat) : Completes (Machine.execIp4 off s) := by
  unfold Machine.execIp4
  split
  · exact .next _
  · next hs =>
    rw [if_pos (h.readable (State.short_false_iff.1 (by simpa using hs)))]
    split <;> exact .next _

theorem State.Inv.dumpRange_completes (h : s.Inv) (p : Config.Params) {a z : Nat} (haz : a ≤ z) (hz : z ≤ s.len.toNat) :
    Completes (s.dumpRange p a z) :=
  ⟨_, State.dumpRange_of_readable (h.readable (by omega))⟩

theorem State.Inv.execDump_completes (h : s.Inv) (a z : Nat) : Completes (Machine.execDump a z s) := by
  unfold Machine.execDump
  split
  · next hr =>
    obtain ⟨haz, hz⟩ := State.rangeLegal_iff.1 hr
    exact (h.markSealed.dumpRange_completes params haz hz).andThen fun _ _ => .next _
  · exact .next _

theorem State.Inv.splitOnce_completes (h : s.Inv) (p : Config.Params) : Completes (Machine.splitOnce p s) :=
  splitOnce_next fun _ => h.readable

/-- The last emitted range lies in order below `LEN`, also when none has been emitted. -/
theorem State.Inv.range_le (h : s.Inv) : s.fstart.toNat ≤ s.fend.toNat ∧ s.fend.toNat ≤ s.len.toNat := by
  refine ⟨?_, h.rangeEnd ▸ h.cursor⟩
  rcases h.range with ⟨-, hz⟩ | hr
  · simp [hz]
  · omega

/-- An iteration that reports code 0 has moved the cursor by a whole frame, of at least 34 bytes (R172). -/
theorem State.Inv.splitOnce_advances {t : State} (h : s.Inv) {p : Config.Params} (ht : Machine.splitOnce p s = .next t)
    (hok : t.code = .ok) : s.cur.toNat + 34 ≤ t.cur.toNat := by
  have hlen := h.lenBound
  rcases splitOnce_cases ht with ⟨r, -, rfl⟩ | ⟨-, -, rfl⟩ | ⟨-, -, -, c, -, rfl⟩ | ⟨-, -, -, -, -, -, rfl⟩
    | ⟨-, -, -, h20, hle, hend, rfl⟩
  · exact absurd hok r.code_ne_ok
  · exact absurd hok (StopReason.code_ne_ok _)
  · exact absurd hok (StopReason.code_ne_ok _)
  · exact absurd hok (StopReason.code_ne_ok .incompleteFrame)
  · rw [State.emitFrame_cur, toAddr_toNat (by omega)]
    omega

/-- The loop of RUN completes when its bound leaves room for every frame that fits between the cursor and the end of the
buffer: each frame uses up one iteration and 34 bytes. -/
theorem State.Inv.runLoop_completes (h : s.Inv) {n : Nat} (hn : 1024 < s.cur.toNat + 34 * n) :
    Completes (Machine.runLoop params n s) := by
  induction n generalizing s with
  | zero =>
    have hcur := h.cursor
    have hlen := h.lenBound
    omega
  | succ n ih =>
    rw [runLoop_succ]
    refine (h.splitOnce_completes params).andThen fun t ht => ?_
    have hinv := h.splitOnce ht
    split
    · next hok =>
      have hcur := h.splitOnce_advances ht hok
      obtain ⟨hse, hel⟩ := hinv.range_le
      refine (hinv.dumpRange_completes params hse hel).andThen fun u hu => ih (hinv.dumpRange hu) ?_
      obtain ⟨-, rfl⟩ := State.dumpRange_next hu
      rw [State.emitText_cur]
      omega
    · exact .next _

theorem State.Inv.execRun_completes (h : s.Inv) : Completes (Machine.execRun s) :=
  h.runLoop_completes (by unfold Config.maxIterations; omega)

end

/-- Settles O45, operation by operation. -/
theorem commandsAlwaysComplete : Obligations.CommandsAlwaysComplete := by
  intro s i h
  cases i with
  | hexdigit v p => exact .next _
  | bindigit v p => exact .next _
  | nop => exact .next _
  | clr => exact .next _
  | push d => exact h.execPush_completes d
  | eth off => exact h.execEth_completes off
  | ip4 off => exact h.execIp4_completes off
  | next => exact h.splitOnce_completes params
  | run => exact h.execRun_completes
  | dump a z => exact h.execDump_completes a z

/-! ### The ports and the step -/

theorem State.Inv.performPort_completes {s : State} (h : s.Inv) (p : PortWord) : Completes (performPort p s) := by
  rcases hp : decodePort p with e | i
  · exact ⟨_, performPort_error hp s⟩
  · rw [performPort_ok hp]
    exact commandsAlwaysComplete s i h

/-- A sample of the read port completes, or the register holds no value (R33, U1). -/
theorem sampleRegister_completes_or (a : BitVec 6) (s : State) :
    Completes (sampleRegister a s)
      ∨ (sampleRegister a s = .fault .unspecifiedRegister ∧ s.readRegister a = none) := by
  unfold sampleRegister
  rcases s.readRegister a with _ | w
  · exact .inr ⟨rfl, rfl⟩
  · exact .inl (.next _)

/-- What a register reads does not depend on what the host does next. -/
theorem State.setInbox_readRegister (s : State) (l : List HostInput) (a : BitVec 6) :
    (s.setInbox l).readRegister a = s.readRegister a := rfl

/-- Settles O46: of what the host can do, a sample alone can fail. -/
theorem onlyInvalidReadsFault : Obligations.OnlyInvalidReadsFault := by
  intro s h
  unfold step
  rcases s.inbox with _ | ⟨x, rest⟩
  · exact .inl (.next _)
  · cases x with
    | issue p => exact .inl ((h.setInbox rest).performPort_completes p)
    | assertRst => exact .inl (.next _)
    | readRegister a =>
      rcases sampleRegister_completes_or a (s.setInbox rest) with hc | ⟨hf, hn⟩
      · exact .inl hc
      · exact .inr ⟨hf, a, rest, rfl, s.setInbox_readRegister rest a ▸ hn⟩

end Sys2Proof.Machine
end

section
/-! PROOFS. The command word: it is the concatenation of its four fields (R90), the decoder accepts exactly the operand forms
of R91, the encoder writes them, and the opcode table lists them; so decoding, encoding and the table agree (R95, R96, R98). -/

namespace Sys2Proof.Machine

/-! ### A word is its fields -/

theorem word_eq_fields (w : Word) : wordOp w ++ wordZ w ++ wordA w ++ wordB w = w := by
  unfold wordOp wordZ wordA wordB
  rw [BitVec.extractLsb'_append_extractLsb'_eq_extractLsb' (start₂ := 28) (start₁ := 22) rfl,
    BitVec.extractLsb'_append_extractLsb'_eq_extractLsb' (start₂ := 22) (start₁ := 11) rfl,
    BitVec.extractLsb'_append_extractLsb'_eq_extractLsb' (start₂ := 11) (start₁ := 0) rfl, BitVec.extractLsb'_eq_self]

section
variable (op : BitVec 4) (z : BitVec 6) (a b : BitVec 11)

@[simp] theorem wordOp_append : wordOp (op ++ z ++ a ++ b) = op := by
  rw [wordOp, BitVec.extractLsb'_append_eq_of_le (by decide), BitVec.extractLsb'_append_eq_of_le (by decide),
    BitVec.extractLsb'_append_eq_left]

@[simp] theorem wordZ_append : wordZ (op ++ z ++ a ++ b) = z := by
  rw [wordZ, BitVec.extractLsb'_append_eq_of_le (by decide), BitVec.extractLsb'_append_eq_of_le (by decide),
    BitVec.extractLsb'_append_eq_right]

@[simp] theorem wordA_append : wordA (op ++ z ++ a ++ b) = a := by
  rw [wordA, BitVec.extractLsb'_append_eq_of_le (by decide), BitVec.extractLsb'_append_eq_right]

@[simp] theorem wordB_append : wordB (op ++ z ++ a ++ b) = b := by
  rw [wordB, BitVec.extractLsb'_append_eq_right]

end

/-- Two words are equal when their fields are. -/
theorem word_ext_iff {w v : Word} :
    w = v ↔ wordOp w = wordOp v ∧ wordZ w = wordZ v ∧ wordA w = wordA v ∧ wordB w = wordB v := by
  refine ⟨fun h => h ▸ ⟨rfl, rfl, rfl, rfl⟩, fun ⟨hop, hz, ha, hb⟩ => ?_⟩
  rw [← word_eq_fields w, hop, hz, ha, hb, word_eq_fields v]

/-- The fields of a command word whose arguments fit their fields, `z` being zero. -/
theorem commandWord_fields {op a b : Nat} (hop : op < 2 ^ 4) (ha : a < 2 ^ 11) (hb : b < 2 ^ 11) :
    wordZ (commandWord op a b) = 0#6 ∧ (wordOp (commandWord op a b)).toNat = op
    ∧ (wordA (commandWord op a b)).toNat = a ∧ (wordB (commandWord op a b)).toNat = b := by
  rw [Laws.EncodeLegal.commandWord_bits ha hb, wordOp_append, wordZ_append, wordA_append, wordB_append]
  exact ⟨rfl, Nat.mod_eq_of_lt hop, Nat.mod_eq_of_lt ha, Nat.mod_eq_of_lt hb⟩

/-- A word with `z` zero is the command word of its other fields. -/
theorem commandWord_of_fields {w : Word} (hz : wordZ w = 0#6) :
    commandWord (wordOp w).toNat (wordA w).toNat (wordB w).toNat = w := by
  rw [Laws.EncodeLegal.commandWord_bits (wordA w).isLt (wordB w).isLt]
  simp only [BitVec.ofNat_toNat, BitVec.setWidth_eq]
  rw [← hz, word_eq_fields]

/-! ### The operand forms -/

/-- The operand forms of R91: which `op` and arguments stand for which command. -/
inductive CommandForm : (op a b : Nat) → Instr → Prop
  | nop : CommandForm 0 0 0 .nop
  | clr : CommandForm 1 0 0 .clr
  | push {d : Nat} (hd : d < 2 ^ 8) : CommandForm 2 0 d (.push d)
  | eth (off : Nat) : CommandForm 3 off 0 (.eth off)
  | ip4 (off : Nat) : CommandForm 4 off 0 (.ip4 off)
  | next : CommandForm 5 0 0 .next
  | run : CommandForm 6 0 0 .run
  | dump (first last : Nat) : CommandForm 7 first last (.dump first last)

theorem ifZero_eq_ok {zero : Bool} {i j : Instr} : ifZero zero i = .ok j ↔ zero = true ∧ i = j := by
  cases zero <;> simp [ifZero]

/-- The decoder accepts a word exactly when its `z` is zero and its other fields have one of the operand forms (R92). -/
theorem decodeCommand_eq_ok {w : Word} {i : Instr} :
    decodeCommand w = .ok i
      ↔ wordZ w = 0#6 ∧ CommandForm (wordOp w).toNat (wordA w).toNat (wordB w).toNat i := by
  unfold decodeCommand
  generalize (wordOp w).toNat = op, (wordA w).toNat = a, (wordB w).toNat = b
  by_cases hz : wordZ w = 0#6
  · rw [if_pos hz]
    simp only [hz, true_and]
    constructor
    · intro h
      split at h
      case h_8 => cases h; exact .dump a b
      case h_9 => cases h
      all_goals
        obtain ⟨hzero, rfl⟩ := ifZero_eq_ok.1 h
        simp only [Bool.and_eq_true, beq_iff_eq, decide_eq_true_eq] at hzero
      case h_1 => obtain ⟨rfl, rfl⟩ := hzero; exact .nop
      case h_2 => obtain ⟨rfl, rfl⟩ := hzero; exact .clr
      case h_3 => obtain ⟨rfl, hb⟩ := hzero; exact .push hb
      case h_4 => subst hzero; exact .eth a
      case h_5 => subst hzero; exact .ip4 a
      case h_6 => obtain ⟨rfl, rfl⟩ := hzero; exact .next
      case h_7 => obtain ⟨rfl, rfl⟩ := hzero; exact .run
    · intro h
      cases h with
      | push hd => exact ifZero_eq_ok.2 ⟨decide_eq_true hd, rfl⟩
      | _ => rfl
  · simp [hz]

/-- What has an operand form is well formed, when the arguments fit their fields, and is encoded with that form. -/
theorem CommandForm.encoded {op a b : Nat} {i : Instr} (h : CommandForm op a b i) (ha : a < 2 ^ 11) (hb : b < 2 ^ 11) :
    i.wellFormed = true ∧ encode i = .command (commandWord op a b) := by
  cases h with
  | nop | clr | next | run => exact ⟨rfl, rfl⟩
  | push hd => exact ⟨decide_eq_true hd, rfl⟩
  | eth | ip4 => exact ⟨decide_eq_true ha, rfl⟩
  | dump => exact ⟨Bool.and_eq_true_iff.2 ⟨decide_eq_true ha, decide_eq_true hb⟩, rfl⟩

/-- A command word of an operand form decodes to the command of that form. -/
theorem CommandForm.decoded {op a b : Nat} {i : Instr} (h : CommandForm op a b i) (ha : a < 2 ^ 11) (hb : b < 2 ^ 11) :
    decodeCommand (commandWord op a b) = .ok i := by
  have hop : op < 2 ^ 4 := by cases h <;> decide
  obtain ⟨hz, hop, ha, hb⟩ := commandWord_fields hop ha hb
  rw [decodeCommand_eq_ok, hop, ha, hb]
  exact ⟨hz, h⟩

/-! ### The round trips -/

/-- A number that fits the field is read back from it. -/
theorem decodePort_bitField {value pos : Nat} (hv : value < 2 ^ 32) (hp : pos < 2 ^ 8) (sel : Bool) :
    decodePort (.bitField sel (BitVec.ofNat 8 pos) (BitVec.ofNat 32 value))
      = .ok (if sel then .bindigit value pos else .hexdigit value pos) := by
  rw [decodePort, BitVec.toNat_ofNat, BitVec.toNat_ofNat, Nat.mod_eq_of_lt hv, Nat.mod_eq_of_lt hp]

/-- Settles O40: each command has its operand form, and the bit-field operands fit their inputs. -/
theorem encodeDecodeRoundTrip : Obligations.EncodeDecodeRoundTrip := by
  intro i h
  cases i with
  | hexdigit value pos =>
    obtain ⟨hv, hp⟩ : value < 2 ^ 32 ∧ pos < 2 ^ 8 := by simpa [Instr.wellFormed] using h
    exact decodePort_bitField hv hp false
  | bindigit value pos =>
    obtain ⟨hv, hp⟩ : value < 2 ^ 32 ∧ pos < 2 ^ 8 := by simpa [Instr.wellFormed] using h
    exact decodePort_bitField hv hp true
  | nop => exact CommandForm.nop.decoded (by decide) (by decide)
  | clr => exact CommandForm.clr.decoded (by decide) (by decide)
  | push d =>
    have hd : d < 2 ^ 8 := of_decide_eq_true h
    exact (CommandForm.push hd).decoded (by decide) (by omega)
  | eth off => exact (CommandForm.eth off).decoded (of_decide_eq_true h) (by decide)
  | ip4 off => exact (CommandForm.ip4 off).decoded (of_decide_eq_true h) (by decide)
  | next => exact CommandForm.next.decoded (by decide) (by decide)
  | run => exact CommandForm.run.decoded (by decide) (by decide)
  | dump first last =>
    obtain ⟨hf, hl⟩ : first < 2 ^ 11 ∧ last < 2 ^ 11 := by simpa [Instr.wellFormed] using h
    exact (CommandForm.dump first last).decoded hf hl

/-- A command word that decodes is the encoding of what it decodes to. -/
theorem decodeCommand_encoded {w : Word} {i : Instr} (h : decodeCommand w = .ok i) :
    i.wellFormed = true ∧ encode i = .command w := by
  obtain ⟨hz, hform⟩ := decodeCommand_eq_ok.1 h
  obtain ⟨hwf, henc⟩ := hform.encoded (wordA w).isLt (wordB w).isLt
  exact ⟨hwf, henc.trans (congrArg PortWord.command (commandWord_of_fields hz))⟩

/-- Settles O41: a command word has the operand form of what it decodes to, and the bit-field inputs are its operands. -/
theorem decodeEncodeRoundTrip : Obligations.DecodeEncodeRoundTrip := by
  intro p i h
  cases p with
  | command w => exact decodeCommand_encoded h
  | bitField sel pos value =>
    have hv := value.isLt
    have hp := pos.isLt
    cases sel <;> cases h <;> exact ⟨by simp [Instr.wellFormed, hv, hp], by simp [encode]⟩

/-! ### The opcode table -/

/-- A row admits a word exactly when it admits each field. -/
theorem admits_iff_fields {r : OpRow} {w : Word} :
    r.admits w = true ↔ wordOp w &&& wordOp r.mask = wordOp r.pattern ∧ wordZ w &&& wordZ r.mask = wordZ r.pattern
      ∧ wordA w &&& wordA r.mask = wordA r.pattern ∧ wordB w &&& wordB r.mask = wordB r.pattern := by
  rw [OpRow.admits, beq_iff_eq, word_ext_iff]
  simp only [wordOp, wordZ, wordA, wordB, BitVec.extractLsb'_and]

/-- Every row fixes `op` and `z`, and wants zero in `z` and in the argument bits it fixes. -/
theorem opTable_fields : ∀ r ∈ opTable, wordOp r.mask = BitVec.allOnes 4 ∧ wordZ r.mask = BitVec.allOnes 6
    ∧ wordZ r.pattern = 0#6 ∧ wordA r.pattern = 0#11 ∧ wordB r.pattern = 0#11 := by
  decide

/-- A row admits the words with its `op`, `z` zero, and zeros where it fixes the arguments. -/
theorem admits_iff_of_mem_opTable {r : OpRow} (hr : r ∈ opTable) {w : Word} :
    r.admits w = true ↔ wordOp w = wordOp r.pattern ∧ wordZ w = 0#6 ∧ wordA w &&& wordA r.mask = 0#11
      ∧ wordB w &&& wordB r.mask = 0#11 := by
  obtain ⟨hopMask, hzMask, hz, ha, hb⟩ := opTable_fields r hr
  rw [admits_iff_fields, hopMask, hzMask, hz, ha, hb, BitVec.and_allOnes, BitVec.and_allOnes]

/-- No two rows of the table have the same `op`. -/
theorem opTable_op_injective :
    ∀ r ∈ opTable, ∀ q ∈ opTable, wordOp r.pattern = wordOp q.pattern → r = q := by
  decide

/-- An argument of which a row fixes every bit is zero. -/
theorem eq_zero_of_all_bits_zero {x : BitVec 11} (h : x &&& BitVec.allOnes 11 = 0#11) : x = 0#11 := by
  rwa [BitVec.and_allOnes] at h

/-- A command without arguments has its form from any arguments of which a row fixes every bit. -/
theorem CommandForm.of_masked_arguments {op : Nat} {a b : BitVec 11} {i : Instr} (h : CommandForm op 0 0 i)
    (ha : a &&& BitVec.allOnes 11 = 0#11) (hb : b &&& BitVec.allOnes 11 = 0#11) : CommandForm op a.toNat b.toNat i := by
  rw [eq_zero_of_all_bits_zero ha, eq_zero_of_all_bits_zero hb]
  exact h

/-- The bits of `b` that PUSH requires to be zero are those above a byte (R91). -/
theorem byte_of_high_bits_zero {b : BitVec 11} (h : b &&& 0x700#11 = 0#11) : b.toNat < 2 ^ 8 := by
  refine Nat.lt_pow_two_of_testBit _ fun k hk => (?_ : b.getLsbD k = false)
  by_cases hk' : k < 11
  · have hbit : (b &&& 0x700#11).getLsbD k = false := by rw [h, BitVec.getLsbD_zero]
    interval_cases k <;> simpa using hbit
  · exact BitVec.getLsbD_of_ge b k (by omega)

/-- A word that a row of the table admits has the operand form of that row's command. -/
theorem exists_form_of_admits {r : OpRow} {w : Word} (hr : r ∈ opTable) (h : r.admits w = true) :
    wordZ w = 0#6 ∧ ∃ i, CommandForm (wordOp w).toNat (wordA w).toNat (wordB w).toNat i := by
  obtain ⟨hop, hz, ha, hb⟩ := (admits_iff_of_mem_opTable hr).1 h
  refine ⟨hz, ?_⟩
  rw [hop]
  generalize wordA w = a, wordB w = b at ha hb
  simp only [opTable, List.mem_cons, List.not_mem_nil, or_false] at hr
  rcases hr with rfl | rfl | rfl | rfl | rfl | rfl | rfl | rfl
  · exact ⟨.nop, CommandForm.nop.of_masked_arguments ha hb⟩
  · exact ⟨.clr, CommandForm.clr.of_masked_arguments ha hb⟩
  · exact ⟨.push b.toNat, eq_zero_of_all_bits_zero ha ▸ .push (byte_of_high_bits_zero hb)⟩
  · exact ⟨.eth a.toNat, eq_zero_of_all_bits_zero hb ▸ .eth a.toNat⟩
  · exact ⟨.ip4 a.toNat, eq_zero_of_all_bits_zero hb ▸ .ip4 a.toNat⟩
  · exact ⟨.next, CommandForm.next.of_masked_arguments ha hb⟩
  · exact ⟨.run, CommandForm.run.of_masked_arguments ha hb⟩
  · exact ⟨.dump a.toNat b.toNat, .dump a.toNat b.toNat⟩

/-- The encoding of a well-formed command is admitted by a row of the table. -/
theorem encodeLegal (i : Instr) : Laws.EncodeLegal.Statement i := by
  cases i with
  | hexdigit v p => exact Laws.EncodeLegal.hexdigit v p
  | bindigit v p => exact Laws.EncodeLegal.bindigit v p
  | nop => exact Laws.EncodeLegal.nop
  | clr => exact Laws.EncodeLegal.clr
  | push d => exact Laws.EncodeLegal.push d
  | eth off => exact Laws.EncodeLegal.eth off
  | ip4 off => exact Laws.EncodeLegal.ip4 off
  | next => exact Laws.EncodeLegal.next
  | run => exact Laws.EncodeLegal.run
  | dump first last => exact Laws.EncodeLegal.dump first last

/-- A word that decodes is admitted by the row of what it decodes to. -/
theorem exists_row_of_decodes {w : Word} {i : Instr} (h : decodeCommand w = .ok i) : ∃ r ∈ opTable, r.admits w = true := by
  obtain ⟨hwf, henc⟩ := decodeCommand_encoded h
  have hrow := encodeLegal i hwf
  rw [henc] at hrow
  obtain ⟨r, hr, hadmits⟩ := hrow
  exact ⟨r, List.mem_of_getElem? hr, hadmits⟩

/-- Settles O39: the operand forms are the rows, and `op` tells the rows apart. -/
theorem decodeAgreesWithOpcodeTable : Obligations.DecodeAgreesWithOpcodeTable := by
  refine ⟨fun w => ⟨fun ⟨i, h⟩ => exists_row_of_decodes h, fun ⟨r, hr, h⟩ => ?_⟩, fun w r q hr hq hrw hqw => ?_⟩
  · obtain ⟨hz, i, hform⟩ := exists_form_of_admits hr h
    exact ⟨i, decodeCommand_eq_ok.2 ⟨hz, hform⟩⟩
  · obtain ⟨hop, -⟩ := (admits_iff_of_mem_opTable hr).1 hrw
    obtain ⟨hop', -⟩ := (admits_iff_of_mem_opTable hq).1 hqw
    exact opTable_op_injective r hr q hq (hop.symm.trans hop')

/-! ### Illegal words -/

/-- The bits R91 requires to be zero are zero in every operand form, and `op` is none of the reserved values. -/
theorem CommandForm.legal {op a b : Nat} {i : Instr} (h : CommandForm op a b i) :
    op < 8 ∧ (op ∈ [0, 1, 5, 6] → a = 0 ∧ b = 0) ∧ (op = 2 → a = 0 ∧ b < 2 ^ 8) ∧ (op ∈ [3, 4] → b = 0) := by
  cases h with
  | push hd => simpa using hd
  | _ => simp

/-- A word that decodes to no instruction is refused with code 6 (R96). -/
theorem performPort_command_illegal {w : Word} (h : ∀ i, decodeCommand w ≠ .ok i) (s : State) :
    performPort (.command w) s = .next { s with code := .illegalCommand } := by
  rcases hd : decodeCommand w with e | i
  · exact performPort_error (p := .command w) hd s
  · exact absurd hd (h i)

/-- Settles O37: an illegal word has no operand form, and the only form of NOP is that of word 0. -/
theorem illegalWordsAreRefused : Obligations.IllegalWordsAreRefused := by
  refine ⟨fun s w hw => performPort_command_illegal (fun i h => ?_) s, fun w hw h => ?_⟩
  · obtain ⟨hz, hform⟩ := decodeCommand_eq_ok.1 h
    obtain ⟨hop, hnone, hpush, hfirst⟩ := hform.legal
    rcases hw with hres | hz' | ⟨hmem, hab⟩ | ⟨hop2, hab⟩ | ⟨hmem, hb⟩
    · omega
    · exact hz' hz
    · obtain ⟨ha, hb⟩ := hnone hmem
      exact hab.elim (· (BitVec.eq_of_toNat_eq ha)) (· (BitVec.eq_of_toNat_eq hb))
    · obtain ⟨ha, hb⟩ := hpush hop2
      refine hab.elim (· (BitVec.eq_of_toNat_eq ha)) (· (BitVec.eq_of_toNat_eq ?_))
      rw [BitVec.extractLsb'_toNat, Nat.shiftRight_eq_div_pow, Nat.div_eq_of_lt hb]
      rfl
    · exact hb (BitVec.eq_of_toNat_eq (hfirst hmem))
  · obtain ⟨-, henc⟩ := decodeCommand_encoded h
    injection henc with henc
    exact hw henc.symm

/-- Settles O42, word by word. -/
theorem sampleWordsDecode : Obligations.SampleWordsDecode :=
  ⟨rfl, rfl, rfl, rfl, rfl, rfl, rfl, rfl, rfl, rfl, rfl, rfl⟩

end Sys2Proof.Machine
end

section
/-! PROOFS. The pure functions that read one field of a header or write one digit of a dump (R81, R85, R86, R111). -/

namespace Sys2Proof.Machine

/-- Settles O7: the model's two tests are the two pairs. -/
theorem etherTypeClasses : Obligations.EtherTypeClasses := by
  refine ⟨rfl, rfl, rfl, fun x y hip harp => ?_⟩
  rw [classifyEther, if_neg hip, if_neg harp]

/-- Settles O9: a byte other than 6 and 17 fails the model's two tests of its number. -/
theorem protocolClasses : Obligations.ProtocolClasses := by
  refine ⟨rfl, rfl, fun p htcp hudp => ?_⟩
  have htcp : p.toNat ≠ Config.protoTcp := fun h => htcp (BitVec.eq_of_toNat_eq h)
  have hudp : p.toNat ≠ Config.protoUdp := fun h => hudp (BitVec.eq_of_toNat_eq h)
  rw [classifyProto, if_neg htcp, if_neg hudp]

/-- The number of two bytes side by side (R61). -/
theorem two_bytes_toNat (x y : Byte) : (x ++ y).toNat = 256 * x.toNat + y.toNat := by
  rw [BitVec.toNat_append, ← Nat.shiftLeft_add_eq_or_of_lt y.isLt, Nat.shiftLeft_eq]
  omega

/-- A bit of the upper of two bytes. -/
theorem getLsbD_two_bytes (x y : Byte) (k : Nat) : (x ++ y).getLsbD (8 + k) = x.getLsbD k := by
  rw [BitVec.getLsbD_append, if_neg (by omega), Nat.add_sub_cancel_left]

/-- Settles O11: the flags are the top bits of the upper byte, the offset the word without them. -/
theorem fragmentWordFields : Obligations.FragmentWordFields := by
  intro f0 f1
  obtain ⟨hrsv, hdf, hmf, hoff⟩ := decodeFrag_spec f0 f1
  refine ⟨hrsv.trans (getLsbD_two_bytes f0 f1 7).symm, hdf.trans (getLsbD_two_bytes f0 f1 6).symm,
    hmf.trans (getLsbD_two_bytes f0 f1 5).symm, BitVec.eq_of_toNat_eq ?_, two_bytes_toNat f0 f1⟩
  have h1 := byte_lt f1
  rw [hoff, BitVec.extractLsb'_toNat, two_bytes_toNat, Nat.shiftRight_zero]
  omega

/-- Settles O26: the digits at positions 0 to 3 are the remainders of the quotients by the powers of 16. -/
theorem hexCharacterCodes : Obligations.HexCharacterCodes := by
  refine ⟨fun n hn => ?_, fun n hlo hhi => ?_, fun v => ?_, fun v => ?_⟩
  · rcases hexChar_cases (n := n) (by omega) with ⟨-, h⟩ | ⟨h10, -⟩
    · exact h
    · omega
  · rcases hexChar_cases (n := n) (by omega) with ⟨h9, -⟩ | ⟨-, h⟩
    · omega
    · exact h
  · rw [hex2, hexDigit_one, hexDigit_zero]
  · rw [hex4, hexDigit_one, hexDigit_zero]
    rfl

end Sys2Proof.Machine
end

section
/-! PROOFS. The bit-field extractor: what its digits add up to (R123), and what its two operations put on the port (R121, R122). -/

namespace Sys2Proof.Machine

/-! ### Numbers and their digits -/

/-- The digits of a number in base `b` at the positions below `n` are the number modulo `b ^ n`. -/
theorem sum_digits_eq_mod_pow (b v n : Nat) : ∑ p ∈ Finset.range n, v / b ^ p % b * b ^ p = v % b ^ n := by
  induction n with
  | zero => rw [Finset.sum_range_zero, Nat.pow_zero, Nat.mod_one]
  | succ n ih => rw [Finset.sum_range_succ, ih, Nat.mod_pow_succ, Nat.mul_comm]

/-- A number is the sum of its nibbles, weighted by their positions (R123). -/
theorem sum_hexDigit {v n : Nat} (h : v < 16 ^ n) : ∑ p ∈ Finset.range n, hexDigit v p * 16 ^ p = v :=
  (sum_digits_eq_mod_pow 16 v n).trans (Nat.mod_eq_of_lt h)

/-- A number is the sum of its bits, weighted by their positions. -/
theorem sum_binaryDigit {v n : Nat} (h : v < 2 ^ n) : ∑ k ∈ Finset.range n, binaryDigit v k * 2 ^ k = v :=
  (sum_digits_eq_mod_pow 2 v n).trans (Nat.mod_eq_of_lt h)

/-- A nibble is the sum of the four bits of the number that stand at its position (R123). -/
theorem hexDigit_eq_sum_binaryDigit (v p : Nat) :
    hexDigit v p = ∑ k ∈ Finset.range 4, binaryDigit v (4 * p + k) * 2 ^ k :=
  calc hexDigit v p
    _ = ∑ k ∈ Finset.range 4, binaryDigit (hexDigit v p) k * 2 ^ k := (sum_binaryDigit (hexDigit_lt v p)).symm
    _ = ∑ k ∈ Finset.range 4, binaryDigit v (4 * p + k) * 2 ^ k :=
      Finset.sum_congr rfl fun k hk => by rw [binaryDigit_hexDigit v p (Finset.mem_range.1 hk)]

/-- A nibble is its own low nibble (R123). -/
theorem hexDigit_hexDigit_zero (v p : Nat) : hexDigit (hexDigit v p) 0 = hexDigit v p := by
  rw [hexDigit_zero, Nat.mod_eq_of_lt (hexDigit_lt v p)]

/-- A byte is its two nibbles side by side (R123). -/
theorem byte_eq_nibbles {b : Nat} (h : b < 256) : b = 16 * hexDigit b 1 + hexDigit b 0 := by
  rw [hexDigit_one, hexDigit_zero]
  omega

/-- A number below a power of 16 has no nibble from that position on. -/
theorem hexDigit_eq_zero_of_le {v n p : Nat} (h : v < 16 ^ n) (hp : n ≤ p) : hexDigit v p = 0 :=
  hexDigit_eq_zero (h.trans_le (Nat.pow_le_pow_right (by decide) hp))

/-- A number below a power of 2 has no bit from that position on. -/
theorem binaryDigit_eq_zero_of_le {v n p : Nat} (h : v < 2 ^ n) (hp : n ≤ p) : binaryDigit v p = 0 :=
  binaryDigit_eq_zero (h.trans_le (Nat.pow_le_pow_right (by decide) hp))

/-- The top bit of a number of `n + 1` bits says whether the number reaches that bit's weight. -/
theorem binaryDigit_top {v n : Nat} (h : v < 2 ^ (n + 1)) : binaryDigit v n = 1 ↔ 2 ^ n ≤ v := by
  have hquot : v / 2 ^ n < 2 := Nat.div_lt_of_lt_mul (by rwa [← Nat.pow_succ])
  rw [binaryDigit, Nat.mod_eq_of_lt hquot, ← Nat.one_le_div_iff (Nat.two_pow_pos n)]
  omega

/-- Settles O3: digits in a base add up to the number, for the base 16 of the nibbles and the base 2 of a nibble's bits. -/
theorem bitFieldLaws : Obligations.BitFieldLaws :=
  ⟨fun _ _ h => (sum_hexDigit h).symm, hexDigit_eq_sum_binaryDigit, hexDigit_hexDigit_zero,
    fun _ hb => ⟨byte_eq_nibbles hb, fun _ hp => hexDigit_eq_zero_of_le (n := 2) hb hp⟩⟩

/-! ### The port -/

theorem exec_hexdigit (value pos : Nat) (s : State) :
    exec (.hexdigit value pos) s = .next (s.setBfxOut (BitVec.ofNat 4 (hexDigit value pos))) := rfl

theorem exec_bindigit (value pos : Nat) (s : State) :
    exec (.bindigit value pos) s = .next (s.setBfxOut (BitVec.ofNat 4 (binaryDigit value pos))) := rfl

/-- A nibble fits the four wires of `bfx_out`. -/
theorem hexDigit_port_toNat (v p : Nat) : (BitVec.ofNat 4 (hexDigit v p)).toNat = hexDigit v p :=
  BitVec.toNat_ofNat .. |>.trans (Nat.mod_eq_of_lt (hexDigit_lt v p))

/-- A bit fits the four wires of `bfx_out`. -/
theorem binaryDigit_port_toNat (v p : Nat) : (BitVec.ofNat 4 (binaryDigit v p)).toNat = binaryDigit v p :=
  BitVec.toNat_ofNat .. |>.trans (Nat.mod_eq_of_lt ((binaryDigit_lt v p).trans (by decide)))

/-- A bit leaves the upper three wires of `bfx_out` 0 (R122). -/
theorem binaryDigit_port_upper (v p : Nat) : (BitVec.ofNat 4 (binaryDigit v p)).extractLsb' 1 3 = 0#3 := by
  have hbit := binaryDigit_lt v p
  interval_cases binaryDigit v p <;> rfl

/-- The wires of `bfx_out` carry 1 exactly when the bit is 1. -/
theorem binaryDigit_port_eq_one (v p : Nat) : BitVec.ofNat 4 (binaryDigit v p) = 1#4 ↔ binaryDigit v p = 1 := by
  rw [← BitVec.toNat_inj, binaryDigit_port_toNat, BitVec.toNat_ofNat, Nat.one_mod]

/-- Settles O1: the port carries the nibble itself, which is 0 past the eight nibbles of a word and in the number 0. -/
theorem hexdigitReadsNibble : Obligations.HexdigitReadsNibble := by
  refine ⟨fun value pos s => ⟨_, exec_hexdigit value pos s, hexDigit_port_toNat value pos, rfl, fun hv hp => ?_, fun hv => ?_⟩,
    fun _ _ => rfl, rfl, rfl⟩
  · rw [hexDigit_eq_zero_of_le (n := 8) hv hp]
  · rw [hv, hexDigit_eq_zero (Nat.pow_pos (by decide))]

/-- Settles O2: the port carries the bit itself, which is 0 past the 32 bits of a word; position 31 is the top one. -/
theorem bindigitReadsBit : Obligations.BindigitReadsBit := by
  refine ⟨fun value pos s => ⟨_, exec_bindigit value pos s, binaryDigit_port_toNat value pos, rfl,
    binaryDigit_port_upper value pos, fun hv hp => ?_, fun hv hp => ?_⟩, fun _ _ => rfl, rfl, rfl⟩
  · rw [binaryDigit_eq_zero_of_le hv hp]
  · rw [binaryDigit_port_eq_one, hp]
    exact binaryDigit_top hv

end Sys2Proof.Machine
end

section
/-! PROOFS. The Ethernet decode: ETH has the two outcomes of R131, one on each side of fourteen bytes left, and its words (R91). -/

namespace Sys2Proof.Machine

/-- With fewer than fourteen bytes left, ETH ends with TruncatedHeader before it reads any (R131). -/
theorem execEth_of_short {s : State} {off : Nat} (h : s.len.toNat < off + 14) :
    execEth off s = .next (s.raise .truncatedHeader .ethDecode) :=
  if_pos (State.short_iff.2 h)

/-- With fourteen bytes left, ETH stores the header they are (R130, R132). -/
theorem execEth_of_holds {s : State} {off : Nat} {b : Nat → Byte} (h : s.Holds off 14 b) :
    execEth off s = .next ((s.markSealed.setEth (ethHeaderAt s.byteAt off)).setCode .ok) := by
  have hshort : ¬s.short off 14 = true := by
    rw [State.short_iff, Nat.not_lt]
    exact h.1
  exact (if_neg hshort).trans (if_pos h.readable)

/-- The word of an ETH: its `op` is 3, its `a` the offset, and all else zero (R91). -/
theorem ethWord_eq_commandWord (off : Nat) : BitVec.ofNat 32 (0x30000000 + 2048 * off) = commandWord 3 off 0 :=
  congrArg (BitVec.ofNat 32) (by omega)

/-- Settles O8: fourteen bytes held pass both checks and decode to the header they are, and a shorter rest fails the first. -/
theorem ethDecodesOrTruncates : Obligations.EthDecodesOrTruncates := by
  refine ⟨fun s off b hb => ?_, fun s off hrest => ?_, fun off hoff => ?_⟩
  · exact ⟨ethHeaderAt s.byteAt off, ethHeaderAt_spec hb, execEth_of_holds hb⟩
  · exact execEth_of_short (by omega)
  · rw [ethWord_eq_commandWord]
    exact (CommandForm.eth off).decoded hoff (by decide)

end Sys2Proof.Machine
end

section
/-! PROOFS. The six settings of `TOS_MAP` (R144): each places the three open bits on the bits 0, 1, 2 of the high nibble, and
where it places two of them says which setting it is. -/

namespace Sys2Proof.Config

/-- The three open bits of the type-of-service byte share the low three bits of its high nibble (R144). -/
theorem TosMap.bits_perm (m : TosMap) : [m.thruBit, m.delayBit, m.rsvBit].Perm [0, 1, 2] := by
  cases m <;> decide

/-- The setting that places `thru` and `delay` on two given bits of the high nibble; it is used to read a setting back. -/
def TosMap.ofBits : (thru delay : Nat) → TosMap
  | 0, 1 => .thruDelayRsv
  | 0, _ => .thruRsvDelay
  | 1, 0 => .delayThruRsv
  | 1, _ => .rsvThruDelay
  | _, 0 => .delayRsvThru
  | _, _ => .rsvDelayThru

theorem TosMap.ofBits_bits (m : TosMap) : TosMap.ofBits m.thruBit m.delayBit = m := by cases m <;> rfl

/-- Two settings that place `thru` and `delay` alike are the same. -/
theorem TosMap.eq_of_bits_eq {m n : TosMap} (ht : m.thruBit = n.thruBit) (hd : m.delayBit = n.delayBit) : m = n :=
  calc m
    _ = TosMap.ofBits m.thruBit m.delayBit := m.ofBits_bits.symm
    _ = TosMap.ofBits n.thruBit n.delayBit := by rw [ht, hd]
    _ = n := n.ofBits_bits

end Sys2Proof.Config
end

section
/-! PROOFS. The IPv4 decode: the bits of the type-of-service byte (R144), IP4 past its two checks ends as the decode of its
twenty bytes says (R142, R154), and its words (R91). -/

namespace Sys2Proof.Machine

/-! ### The type-of-service byte -/

/-- The number bits 3:1 of the byte make (R84). -/
theorem bits_three_to_one_toNat (t : Byte) : (t.extractLsb' 1 3).toNat = t.toNat / 2 % 8 := by
  rw [BitVec.extractLsb'_toNat, Nat.shiftRight_eq_div_pow, Nat.pow_one]

/-- The two bits of two flags side by side. -/
theorem two_flags_getLsbD (x y : Bool) :
    (BitVec.ofBool x ++ BitVec.ofBool y).getLsbD 0 = y ∧ (BitVec.ofBool x ++ BitVec.ofBool y).getLsbD 1 = x := by
  cases x <;> cases y <;> exact ⟨rfl, rfl⟩

/-- The two reserved bits under any setting of `TOS_MAP` (R84). -/
theorem decodeTos_trsv_bits (m : Config.TosMap) (t : Byte) :
    (decodeTos m t).trsv.getLsbD 0 = t.getLsbD (4 + m.rsvBit) ∧ (decodeTos m t).trsv.getLsbD 1 = t.getLsbD 7 := by
  obtain ⟨-, -, -, -, htrsv⟩ := decodeTos_spec m t
  rw [htrsv]
  exact two_flags_getLsbD _ _

/-- Under a setting that leaves bit 6 reserved, the two reserved bits are the top two bits of the byte. -/
theorem decodeTos_trsv_eq_top {m : Config.TosMap} (h : m.rsvBit = 2) (t : Byte) :
    (decodeTos m t).trsv = t.extractLsb' 6 2 := by
  obtain ⟨h0, h1⟩ := decodeTos_trsv_bits m t
  rw [h] at h0
  refine BitVec.eq_of_getLsbD_eq fun i hi => ?_
  rw [BitVec.getLsbD_extractLsb', decide_eq_true hi, Bool.true_and]
  interval_cases i
  · exact h0
  · exact h1

/-- Settles O10: bit `k` of the high nibble is bit `4 + k` of the byte, whichever `k` a setting names. -/
theorem tosByteFields : Obligations.TosByteFields := by
  refine ⟨fun m t => ?_, Config.TosMap.bits_perm, fun _ _ => Config.TosMap.eq_of_bits_eq, fun t => ?_⟩
  · obtain ⟨hprec, hreli, hthru, hdelay, -⟩ := decodeTos_spec m t
    exact ⟨hprec ▸ bits_three_to_one_toNat t, hreli, hthru, hdelay, decodeTos_trsv_bits m t⟩
  · obtain ⟨-, -, hthru, hdelay, -⟩ := decodeTos_spec params.tosMap t
    exact ⟨hthru, hdelay, decodeTos_trsv_eq_top rfl t⟩

/-! ### IP4 -/

/-- The two lengths the decode reads in twenty bytes the buffer holds are those they declare (R143, R145). -/
theorem State.Holds.ipHeaderLengths {s : State} {off : Nat} {b : Nat → Byte} (h : s.Holds off 20 b) :
    ipHlenAt s.byteAt off = hlenOf b ∧ ipTlenAt s.byteAt off = tlenOf b := by
  have h0 : s.byteAt off = b 0 := h.byteAt (i := 0) (by decide)
  have h2 : s.byteAt (off + 2) = b 2 := h.byteAt (by decide)
  have h3 : s.byteAt (off + 2 + 1) = b 3 := h.byteAt (i := 3) (by decide)
  constructor
  · rw [ipHlenAt_eq, h0, hlenOf]
  · rw [ipTlenAt, readPair, h2, h3, tlenOf]

/-- With fewer than twenty bytes left, IP4 ends with TruncatedHeader before it reads any (R141). -/
theorem execIp4_of_short {s : State} {off : Nat} (h : s.len.toNat < off + 20) :
    execIp4 off s = .next (s.raise .truncatedHeader .ipDecode) :=
  if_pos (State.short_iff.2 h)

/-- With twenty bytes left, IP4 drops the I group for a header length below 20, else for a total length below that, and else
stores the header the bytes are (R140, R154). -/
theorem execIp4_of_holds {s : State} {off : Nat} {b : Nat → Byte} (h : s.Holds off 20 b) :
    execIp4 off s = .next
      (if hlenOf b < 20 then s.raise .invalidHeaderLength .ipDecode
      else if tlenOf b < hlenOf b then s.raise .invalidTotalLength .ipDecode
      else (s.markSealed.setIp (ipHeaderAt params.tosMap s.byteAt off)).setCode .ok) := by
  have hshort : ¬s.short off Config.ipMin = true := by
    rw [State.short_iff, Nat.not_lt]
    exact h.1
  have hread : s.readable off Config.ipMin = true := h.readable
  rw [execIp4, if_neg hshort, if_pos hread]
  obtain ⟨hhlen, htlen⟩ := h.ipHeaderLengths
  rw [← hhlen, ← htlen]
  rcases decodeIpAt_cases params.tosMap s.byteAt off with ⟨hlt, hd⟩ | ⟨h20, hlt, hd⟩ | ⟨h20, hle, hd⟩
  · rw [hd, if_pos hlt]
    rfl
  · rw [hd, if_neg (Nat.not_lt.2 h20), if_pos hlt]
    rfl
  · rw [hd, if_neg (Nat.not_lt.2 h20), if_neg (Nat.not_lt.2 hle)]

/-- The word of an IP4: its `op` is 4, its `a` the offset, and all else zero (R91). -/
theorem ip4Word_eq_commandWord (off : Nat) : BitVec.ofNat 32 (0x40000000 + 2048 * off) = commandWord 4 off 0 :=
  congrArg (BitVec.ofNat 32) (by omega)

/-- Settles O12: the two lengths the bytes declare let the decode through, and the header it returns is the one they are. -/
theorem ip4DecodesHeader : Obligations.Ip4DecodesHeader := by
  refine ⟨fun s off b hb h20 hle => ⟨ipHeaderAt params.tosMap s.byteAt off, ipHeaderAt_spec hb, ?_⟩, fun off hoff => ?_⟩
  · refine (execIp4_of_holds hb).trans ?_
    rw [if_neg (Nat.not_lt.2 h20), if_neg (Nat.not_lt.2 hle)]
    rfl
  · rw [ip4Word_eq_commandWord]
    exact (CommandForm.ip4 off).decoded hoff (by decide)

/-- Settles O13: too few bytes end IP4 before the decode, and the decode tests the header length before the total length. -/
theorem ip4ConditionsInPriority : Obligations.Ip4ConditionsInPriority := by
  refine ⟨fun s off hrest => execIp4_of_short (by omega), fun s off b hb hlt => ?_, fun s off b hb h20 hlt => ?_⟩
  · refine (execIp4_of_holds hb).trans ?_
    rw [if_pos hlt]
    rfl
  · refine (execIp4_of_holds hb).trans ?_
    rw [if_neg (Nat.not_lt.2 h20), if_pos hlt]
    rfl

end Sys2Proof.Machine
end

section
/-! PROOFS. The splitter: what an iteration emits where a frame begins (R170, R176), what it has done when it reports 0 (R172),
and that the bound on the loop of RUN is not felt (R180, R281). -/

namespace Sys2Proof.Machine

/-! ### The stopped splitter -/

/-- The loop of RUN ends with its first iteration when that does not report 0 (R180). -/
theorem runLoop_of_splitOnce_not_ok {p : Config.Params} {n : Nat} {s t : State} (h : splitOnce p s = .next t)
    (hc : t.code ≠ .ok) : runLoop p (n + 1) s = .next t := by
  rw [runLoop_succ, h, andThen_next, if_neg hc]

/-- Settles O16: the iteration of a stopped splitter re-reports the stop, which is no code 0, so a RUN ends with it. -/
theorem stoppedSplitterOnlyReports : Obligations.StoppedSplitterOnlyReports := by
  intro s r hr
  have hnext : splitOnce params s = .next (s.setCode r.code) := splitOnce_stopped hr
  exact ⟨hnext, runLoop_of_splitOnce_not_ok hnext r.code_ne_ok, by rw [State.stopcode, hr]⟩

/-! ### The frame at the cursor -/

/-- The first bytes of a range that is held are held. -/
theorem State.Holds.take {s : State} {a n m : Nat} {b : Nat → Byte} (h : s.Holds a n b) (hmn : m ≤ n) : s.Holds a m b :=
  ⟨Nat.le_trans (Nat.add_le_add_left hmn a) h.1, fun i hi => h.2 i (Nat.lt_of_lt_of_le hi hmn)⟩

section
variable {s : State} {a : Nat} {b : Nat → Byte}

/-- The E group decoded at a frame is the header of its first fourteen bytes. -/
theorem State.FrameBytes.ethHeader (h : s.FrameBytes a b) : EthHeaderOf b (ethHeaderAt s.byteAt a) :=
  ethHeaderAt_spec (h.1.take (by decide))

/-- The I group decoded fourteen bytes into a frame is the header of the twenty bytes there. -/
theorem State.FrameBytes.ipHeader (h : s.FrameBytes a b) :
    IpHeaderOf (ipPart b) (a + 14) (ipHeaderAt params.tosMap s.byteAt (a + 14)) :=
  ipHeaderAt_spec (h.1.part (k := 14) (m := 20) (by decide))

/-- The end of a frame fits its register, since it is at most `LEN` (R172). -/
theorem State.FrameBytes.toAddr_end (h : s.FrameBytes a b) :
    (toAddr (a + 14 + tlenOf (ipPart b))).toNat = a + 14 + tlenOf (ipPart b) := by
  obtain ⟨-, -, -, hend⟩ := h
  exact toAddr_toNat (Nat.lt_of_le_of_lt hend s.len.isLt)

end

/-- A header with legal lengths is decoded (R142, R154). -/
theorem decodeIpAt_of_legal {m : Config.TosMap} {rd : Nat → Byte} {off : Nat} (h20 : 20 ≤ ipHlenAt rd off)
    (hle : ipHlenAt rd off ≤ ipTlenAt rd off) : decodeIpAt m rd off = .ok (ipHeaderAt m rd off) :=
  (if_neg (Nat.not_lt.2 h20)).trans (if_neg (Nat.not_lt.2 hle))

/-- All that the end of an iteration writes when it emits a frame (R170, R176). -/
theorem State.emitFrame_eq (s : State) (e : EthHeader) (i : IpHeader) (z : Nat) :
    s.emitFrame e i z =
      { s with
        sealed := true, code := .ok, eth := some e, ip := some i, fstart := s.cur, fend := toAddr z, cur := toAddr z
        fcnt := s.fcnt + 1#8, out := s.out ++ [.desc (frameDescriptor s.cur (toAddr z) e i)] } := by
  simp only [State.emitFrame, State.markSealed, State.setRange, State.setEth, State.setIp, State.emitDesc, State.advance,
    State.setCode]

/-- The descriptor that an iteration emits for the frame at the cursor whose bytes are `b` (R176). -/
def State.frameAtCursor (s : State) (b : Nat → Byte) : Descriptor :=
  frameDescriptor s.cur (toAddr (s.cur.toNat + 14 + tlenOf (ipPart b))) (ethHeaderAt s.byteAt s.cur.toNat)
    (ipHeaderAt params.tosMap s.byteAt (s.cur.toNat + 14))

/-- Where a frame begins at the cursor of an unstopped splitter, an iteration passes every check and emits it (R170). -/
theorem splitOnce_of_frameBytes {p : Config.Params} {s : State} {b : Nat → Byte} (hs : s.stopReason = none)
    (hf : s.FrameBytes s.cur.toNat b) :
    splitOnce p s = .next
      (s.emitFrame (ethHeaderAt s.byteAt s.cur.toNat) (ipHeaderAt p.tosMap s.byteAt (s.cur.toNat + 14))
        (s.cur.toNat + 14 + tlenOf (ipPart b))) := by
  obtain ⟨hb, h20, hle, hend⟩ := hf
  obtain ⟨hhlen, htlen⟩ := hb.ipLengths
  obtain ⟨-, -, -, hfield, -⟩ := ipHeaderAt_numbers p.tosMap s.byteAt (s.cur.toNat + 14)
  rw [← hhlen] at h20 hle
  rw [← htlen] at hle hend ⊢
  rw [splitOnce_decode hs hb.1 hb.readable, decodeIpAt_of_legal h20 hle]
  dsimp only
  rw [hfield, if_neg (Nat.not_lt.2 hend)]

/-- Settles O14: the iteration emits the frame, and the two headers are those its bytes are. -/
theorem nextEmitsFrame : Obligations.NextEmitsFrame := by
  intro s b hs hf
  refine ⟨_, _, s.frameAtCursor b, hf.ethHeader, hf.ipHeader, rfl, hf.toAddr_end, rfl, rfl, ?_⟩
  exact (splitOnce_of_frameBytes hs hf).trans (congrArg _ (s.emitFrame_eq _ _ _))

/-- An iteration that reports 0 has emitted the frame at the cursor of an unstopped splitter (R170). -/
theorem splitOnce_ok {p : Config.Params} {s t : State} (h : splitOnce p s = .next t) (hok : t.code = .ok) :
    s.stopReason = none ∧ ∃ b, s.FrameBytes s.cur.toNat b
      ∧ t = s.emitFrame (ethHeaderAt s.byteAt s.cur.toNat) (ipHeaderAt p.tosMap s.byteAt (s.cur.toNat + 14))
        (s.cur.toNat + 14 + tlenOf (ipPart b)) := by
  rcases hs : s.stopReason with _ | r
  · rcases splitOnce_stop_or_frame hs h with ⟨r, -, rfl⟩ | hframe
    · exact absurd hok r.code_ne_ok
    · exact ⟨rfl, hframe⟩
  · rw [splitOnce_stopped hs] at h
    cases h
    exact absurd hok r.code_ne_ok

/-- Settles O18: the NEXT has taken a frame, whose end is at most `LEN`, so that no register narrows it. -/
theorem emittedFrameRange : Obligations.EmittedFrameRange := by
  intro s t h hok
  obtain ⟨-, b, hf, rfl⟩ := splitOnce_ok h hok
  have hfend := hf.toAddr_end
  obtain ⟨-, -, hhlen, -, -, -, -, -, -, htlen, -⟩ := hf.ipHeader
  obtain ⟨-, h20, hle, hend⟩ := hf
  rw [State.emitFrame_eq]
  refine ⟨_, rfl, rfl, rfl, ?_, ?_, ?_, ?_, ?_⟩
  · rw [htlen]
    exact hfend
  · rw [hhlen]
    exact h20
  · rw [hhlen, htlen]
    exact hle
  · exact hfend.trans_le hend
  · rw [hfend]
    omega

/-! ### The loop and its bound -/

/-- A loop that completes does the same under any higher bound (R281). -/
theorem runLoop_mono {p : Config.Params} {n m : Nat} {s t : State} (h : runLoop p n s = .next t) (hnm : n ≤ m) :
    runLoop p m s = .next t := by
  induction n generalizing m s with
  | zero => cases h
  | succ n ih =>
    obtain ⟨m, rfl⟩ : ∃ k, m = k + 1 := ⟨m - 1, by omega⟩
    rcases runLoop_next h with ⟨hu, hc⟩ | ⟨u, v, hu, hok, hv, hrest⟩
    · exact runLoop_of_splitOnce_not_ok hu hc
    · rw [runLoop_succ, hu, andThen_next, if_pos hok, hv, andThen_next]
      exact ih hrest (by omega)

/-- From a state of the invariant, any bound that leaves room for every frame that still fits gives what RUN does. -/
theorem State.Inv.runLoop_eq_execRun {s : State} (h : s.Inv) {n : Nat} (hn : 1024 < s.cur.toNat + 34 * n) (hle : n ≤ 31) :
    Machine.runLoop params n s = execRun s := by
  obtain ⟨t, ht⟩ := h.runLoop_completes hn
  exact ht.trans (runLoop_mono ht hle).symm

/-- A DUMP of a legal range of a sealed state with code 0 does no more than emit the text. -/
theorem execDump_of_sealed_ok {s : State} {a z : Nat} (hr : s.rangeLegal a z = true) (hs : s.sealed = true)
    (hok : s.code = .ok) : execDump a z s = s.dumpRange params a z := by
  have hseal : s.markSealed = s := by rw [State.markSealed, ← hs]
  rw [execDump, if_pos hr, hseal, State.dumpRange]
  split
  · rw [andThen_next, State.setCode, ← hok]
    rfl
  · rfl

/-- Settles O19: after an iteration that reports 0 the dump of the loop is a DUMP of the range, and the loop has an iteration
less, but a frame less to take, so that its bound is still enough. -/
theorem runIsNextThenDump : Obligations.RunIsNextThenDump := by
  intro s h
  obtain ⟨t, ht⟩ := h.splitOnce_completes params
  have hinv := h.splitOnce ht
  change Machine.runLoop params (30 + 1) s = andThen (splitOnce params s) _
  rw [runLoop_succ, ht, andThen_next, andThen_next]
  split
  · next hok =>
    have hcur := h.splitOnce_advances ht hok
    obtain ⟨hse, hel⟩ := hinv.range_le
    have hdump : execDump t.fstart.toNat t.fend.toNat t = t.dumpRange params t.fstart.toNat t.fend.toNat :=
      execDump_of_sealed_ok (State.rangeLegal_iff.2 ⟨hse, hel⟩) (splitOnce_sealed h ht) hok
    obtain ⟨u, hu⟩ := hinv.dumpRange_completes params hse hel
    have hucur : u.cur = t.cur := by
      obtain ⟨-, rfl⟩ := State.dumpRange_next hu
      rfl
    change _ = andThen (execDump _ _ t) execRun
    rw [hdump, hu, andThen_next, andThen_next]
    exact (hinv.dumpRange hu).runLoop_eq_execRun (by rw [hucur]; omega) (by decide)
  · rfl

end Sys2Proof.Machine
end

section
/-! PROOFS. RUN walks the buffer (R180, R176, R48, R282): what a frame with its dump does to the state, what a loop that has
taken a list of frames and then stopped has done, and one induction over the loop. -/

namespace Sys2Proof.Machine

/-! ### Frames are a matter of `BUF` and `LEN` -/

theorem State.frameOf_congr {s t : State} (hb : t.buf = s.buf) (hl : t.len = s.len) {d : Descriptor} :
    t.FrameOf d ↔ s.FrameOf d := by
  simp only [State.FrameOf, State.FrameBytes, State.holds_congr hb hl, hl]

theorem State.frameChain_congr {s t : State} (hb : t.buf = s.buf) (hl : t.len = s.len) {ds : List Descriptor} {a z : Nat} :
    t.FrameChain a ds z ↔ s.FrameChain a ds z := by
  induction ds generalizing a with
  | nil => rfl
  | cons d ds ih => rw [State.FrameChain, State.FrameChain, State.frameOf_congr hb hl, ih]

theorem State.frameBeats_congr {s t : State} (hb : t.buf = s.buf) (hl : t.len = s.len) : t.frameBeats = s.frameBeats := by
  funext d
  rw [State.frameBeats, State.frameBeats, State.bytes_congr (State.bufRead_congr hb hl)]

/-- The descriptor an iteration emits is that of the frame at the cursor. -/
theorem State.FrameBytes.frameOf {s : State} {b : Nat → Byte} (h : s.FrameBytes s.cur.toNat b) :
    s.FrameOf (s.frameAtCursor b) :=
  ⟨b, _, _, h, h.ethHeader, h.ipHeader, h.toAddr_end, rfl, rfl⟩

/-! ### One frame and its dump -/

/-- `v` is the unstopped splitter `s` after the frame `d` at its cursor has been emitted and dumped. -/
structure TookFrame (s v : State) (d : Descriptor) : Prop where
  frame : s.FrameOf d
  start : d.fstart = s.cur
  count : v.fcnt.toNat = s.fcnt.toNat + 1
  state : v =
    { s with
      sealed := true, code := .ok, eth := v.eth, ip := v.ip, fstart := d.fstart, fend := d.fend, cur := d.fend
      fcnt := v.fcnt, out := s.out ++ s.frameBeats d }

section
variable {s v : State} {d : Descriptor}

theorem TookFrame.buf (h : TookFrame s v d) : v.buf = s.buf := (congrArg State.buf h.state).trans rfl

theorem TookFrame.len (h : TookFrame s v d) : v.len = s.len := (congrArg State.len h.state).trans rfl

theorem TookFrame.cur (h : TookFrame s v d) : v.cur = d.fend := (congrArg State.cur h.state).trans rfl

theorem TookFrame.fstart (h : TookFrame s v d) : v.fstart = d.fstart := (congrArg State.fstart h.state).trans rfl

theorem TookFrame.fend (h : TookFrame s v d) : v.fend = d.fend := (congrArg State.fend h.state).trans rfl

theorem TookFrame.stopReason (h : TookFrame s v d) : v.stopReason = s.stopReason :=
  (congrArg State.stopReason h.state).trans rfl

theorem TookFrame.out (h : TookFrame s v d) : v.out = s.out ++ s.frameBeats d := (congrArg State.out h.state).trans rfl

end

/-- The count of frames, which the invariant keeps at most 30, does not wrap at the next one (R24). -/
theorem State.Inv.fcnt_succ {s : State} (h : s.Inv) : (s.fcnt + 1#8).toNat = s.fcnt.toNat + 1 := by
  have hcount := h.count
  have hcur := h.cursor
  have hlen := h.lenBound
  rw [BitVec.toNat_add_of_lt] <;> simp; omega

/-- An iteration that reports 0, with the dump of its range, takes the frame at the cursor (R180, R48). -/
theorem State.Inv.tookFrame {s u v : State} (h : s.Inv) (hu : Machine.splitOnce params s = .next u) (hok : u.code = .ok)
    (hv : u.dumpRange params u.fstart.toNat u.fend.toNat = .next v) : ∃ d, TookFrame s v d := by
  obtain ⟨-, b, hf, rfl⟩ := splitOnce_ok hu hok
  obtain ⟨-, rfl⟩ := State.dumpRange_next hv
  refine ⟨s.frameAtCursor b, hf.frameOf, rfl, h.fcnt_succ, ?_⟩
  rw [State.emitFrame_eq, State.emitText, List.append_assoc]
  rfl

/-! ### The walk -/

/-- `t` is the unstopped splitter `s` after it has taken the frames `ds` and stopped for the reason `r`. -/
structure Walked (s t : State) (ds : List Descriptor) (r : StopReason) : Prop where
  chain : s.FrameChain s.cur.toNat ds t.cur.toNat
  stop : s.StopsAt t.cur.toNat r
  count : t.fcnt.toNat = s.fcnt.toNat + ds.length
  rangeKept : ds = [] → t.fstart = s.fstart ∧ t.fend = s.fend
  rangeLast : ∀ d, ds.getLast? = some d → t.fstart = d.fstart ∧ t.fend = d.fend
  state : t =
    { s with
      cur := t.cur, fcnt := t.fcnt, fstart := t.fstart, fend := t.fend
      code := r.code, stopReason := some r, sealed := true, eth := none, ip := none
      out := s.out ++ ds.flatMap s.frameBeats }

/-- A walk that stops at once. -/
theorem Walked.stopWith {s : State} {r : StopReason} (h : s.StopsAt s.cur.toNat r) : Walked s (s.stopWith r) [] r where
  chain := rfl
  stop := h
  count := rfl
  rangeKept _ := ⟨rfl, rfl⟩
  rangeLast _ hd := absurd hd.symm (Option.some_ne_none _)
  state := by
    rw [List.flatMap_nil, List.append_nil]
    rfl

/-- A walk that begins with a frame. -/
theorem Walked.cons {s v t : State} {d : Descriptor} {ds : List Descriptor} {r : StopReason} (hd : TookFrame s v d)
    (h : Walked v t ds r) : Walked s t (d :: ds) r where
  chain := by
    refine ⟨congrArg BitVec.toNat hd.start, hd.frame, ?_⟩
    rw [← hd.cur, ← State.frameChain_congr hd.buf hd.len]
    exact h.chain
  stop := (State.stopsAt_congr hd.buf hd.len).1 h.stop
  count := by
    rw [h.count, hd.count, List.length_cons]
    omega
  rangeKept := nofun
  rangeLast d' hd' := by
    cases ds with
    | nil =>
      obtain rfl : d = d' := Option.some.inj hd'
      rw [← hd.fstart, ← hd.fend]
      exact h.rangeKept rfl
    | cons e ds => exact h.rangeLast d' (List.getLast?_cons_cons ▸ hd')
  state := by
    have hbeats : v.out ++ ds.flatMap v.frameBeats = s.out ++ (d :: ds).flatMap s.frameBeats := by
      rw [hd.out, State.frameBeats_congr hd.buf hd.len, List.flatMap_cons, List.append_assoc]
    rw [← hbeats]
    refine h.state.trans ?_
    rw [hd.state]

/-- A loop that completes from an unstopped splitter has walked the buffer. -/
theorem State.Inv.runLoop_walked {n : Nat} {s t : State} (h : s.Inv) (hs : s.stopReason = none)
    (ht : Machine.runLoop params n s = .next t) : ∃ ds r, Walked s t ds r := by
  induction n generalizing s with
  | zero => cases ht
  | succ n ih =>
    rcases runLoop_next ht with ⟨hu, hc⟩ | ⟨u, v, hu, hok, hv, hrest⟩
    · rcases splitOnce_stop_or_frame hs hu with ⟨r, hr, rfl⟩ | ⟨b, -, rfl⟩
      · exact ⟨[], r, .stopWith hr⟩
      · exact absurd rfl hc
    · obtain ⟨d, hd⟩ := h.tookFrame hu hok hv
      obtain ⟨ds, r, hw⟩ := ih ((h.splitOnce hu).dumpRange hv) (hd.stopReason.trans hs) hrest
      exact ⟨d :: ds, r, .cons hd hw⟩

/-- Settles O20: a RUN completes, and its loop has walked the buffer. -/
theorem runWalksTheBuffer : Obligations.RunWalksTheBuffer := by
  intro s h hs
  obtain ⟨t, ht⟩ := h.execRun_completes
  obtain ⟨ds, r, hw⟩ := h.runLoop_walked hs ht
  exact ⟨t, ds, r, ht, hw.chain, hw.stop, hw.count, hw.rangeKept, hw.rangeLast, hw.state⟩

end Sys2Proof.Machine
end

section
/-! PROOFS. The hex dump (R190 to R200): where a row stands in the text and a part in its row, how large the text is, what the
hex columns read back as, and when DUMP emits it. -/

namespace Sys2Proof.Machine

/-! ### The parts of a row -/

/-- Past a first part a list is its second part. -/
theorem getElem?_append_length_add {α : Type} (l m : List α) (i : Nat) : (l ++ m)[l.length + i]? = m[i]? := by
  rw [List.getElem?_append_right (Nat.le_add_right _ _), Nat.add_sub_cancel_left]

/-- Where blocks of one width stand before it, block `r` begins `r` widths in. -/
theorem getElem?_flatMap_range {α : Type} {f : Nat → List α} {n r w i : Nat} (hr : r < n)
    (hw : ∀ k, k < r → (f k).length = w) (hi : i < (f r).length) : ((List.range n).flatMap f)[r * w + i]? = (f r)[i]? := by
  have hbefore : ((List.range r).flatMap f).length = r * w := by
    rw [List.length_flatMap, List.map_congr_left fun k hk => hw k (List.mem_range.1 hk), List.map_const', List.length_range,
      List.sum_const_nat]
  obtain ⟨m, rfl⟩ := Nat.exists_eq_add_of_lt hr
  rw [Nat.add_assoc, List.range_add, List.flatMap_append, ← hbefore, getElem?_append_length_add,
    List.range_succ_eq_map, List.map_cons, List.flatMap_cons, Nat.add_zero, List.getElem?_append_left hi]

section
variable {p : Config.Params} {base : Nat} {row : List Byte}

/-- Each cell before cell `j` takes three columns with its space (R193). -/
theorem hexArea_column {j i : Nat} (hj : j < 16) (hi : i < (hexCell row j ++ if j < 15 then [spaceCode] else []).length) :
    (hexArea row)[3 * j + i]? = (hexCell row j ++ if j < 15 then [spaceCode] else [])[i]? := by
  rw [Nat.mul_comm]
  refine getElem?_flatMap_range hj (fun k hk => ?_) hi
  have hsep : k < Config.rowOctets - 1 := Nat.lt_of_lt_of_le hk (Nat.le_of_lt_succ hj)
  rw [List.length_append, hexCell_length, if_pos hsep, List.length_singleton]

theorem hexRow_offset_column {i : Nat} (hi : i < 4) : (hexRow p base row)[i]? = some (hexChar (hexDigit base (3 - i))) := by
  interval_cases i <;> rfl

theorem hexRow_offset_space : (hexRow p base row)[4]? = some spaceCode := rfl

theorem hexRow_area_column {c : Nat} (hc : c < 47) : (hexRow p base row)[5 + c]? = (hexArea row)[c]? := by
  have hcol : 5 + c = (hex4 base ++ [spaceCode]).length + c := rfl
  rw [hexRow, List.append_assoc, List.append_assoc, List.append_assoc, hcol, getElem?_append_length_add,
    List.getElem?_append_left (hexArea_length row ▸ hc)]

/-- The two columns of cell `j` (R193). -/
theorem hexRow_cell_column {j i : Nat} (hj : j < 16) (hi : i < 2) :
    (hexRow p base row)[5 + 3 * j + i]? = (hexCell row j)[i]? := by
  have hcell : i < (hexCell row j).length := (hexCell_length row j).symm ▸ hi
  rw [Nat.add_assoc, hexRow_area_column (by omega),
    hexArea_column hj (by rw [List.length_append]; omega), List.getElem?_append_left hcell]

/-- The space after each cell but the last (R193). -/
theorem hexRow_cell_space {j : Nat} (hj : j < 15) : (hexRow p base row)[7 + 3 * j]? = some spaceCode := by
  have hcol : 7 + 3 * j = 5 + (3 * j + (hexCell row j).length) := by rw [hexCell_length]; omega
  rw [hcol, hexRow_area_column (by rw [hexCell_length]; omega), hexArea_column (by omega) (by simp [hj]),
    List.getElem?_append_right (Nat.le_refl _), Nat.sub_self, if_pos hj]
  rfl

theorem hexRow_gap_column {g : Nat} (hg : g < p.hdGap) : (hexRow p base row)[52 + g]? = some spaceCode := by
  have hcol : 52 + g = (hex4 base ++ [spaceCode] ++ hexArea row).length + g := by simp
  rw [hexRow, List.append_assoc, List.append_assoc, hcol, getElem?_append_length_add,
    List.getElem?_append_left (by simpa using hg), List.getElem?_replicate_of_lt hg]

theorem hexRow_ascii_column {j : Nat} (hj : j < row.length) :
    (hexRow p base row)[52 + p.hdGap + j]? = row[j]?.map asciiOf := by
  have hcol : 52 + p.hdGap + j = (hex4 base ++ [spaceCode] ++ hexArea row ++ List.replicate p.hdGap spaceCode).length + j := by
    simp; omega
  rw [hexRow, List.append_assoc, hcol, getElem?_append_length_add, List.getElem?_append_left (by simpa using hj),
    List.getElem?_map]

/-- A row is its characters and then `EOL`. -/
theorem hexRow_eq_append_eol (p : Config.Params) (base : Nat) (row : List Byte) :
    hexRow p base row = hexRow { p with eol := [] } base row ++ p.eol := by
  rw [hexRow, hexRow, List.append_nil]

theorem hexRow_eol_column {i : Nat} : (hexRow p base row)[52 + p.hdGap + row.length + i]? = p.eol[i]? := by
  have hlen : (hexRow { p with eol := [] } base row).length = 52 + p.hdGap + row.length :=
    hexRow_length { p with eol := [] } base row
  rw [hexRow_eq_append_eol, ← hlen, getElem?_append_length_add]

end

/-! ### The rows of a dump -/

/-- The rows of a sequence, one after another, are the sequence (R192). -/
theorem flatMap_rowBytes (b : List Byte) : (List.range (rowCount b.length)).flatMap (fun r => rowBytes b (16 * r)) = b := by
  have htake : ∀ n, (List.range n).flatMap (fun r => rowBytes b (16 * r)) = b.take (16 * n) := by
    intro n
    induction n with
    | zero => rfl
    | succ n ih =>
      rw [List.range_succ, List.flatMap_append, ih, List.flatMap_singleton, Nat.mul_succ, List.take_add]
      rfl
  rw [htake, List.take_of_length_le]
  rw [rowCount_eq]
  omega

theorem rowBytes_getElem? (b : List Byte) {a j : Nat} (hj : j < 16) : (rowBytes b a)[j]? = b[a + j]? := by
  rw [rowBytes, List.getElem?_take_of_lt (show j < Config.rowOctets from hj), List.getElem?_drop]

/-- The rows before a row are full, so it begins after as many widths of a full row (R193). -/
theorem hexDump_row_column {p : Config.Params} {b : List Byte} {r i : Nat} (hr : 16 * r < b.length)
    (hi : i < (hexRow p (16 * r) (rowBytes b (16 * r))).length) :
    (hexDump p b)[r * (68 + p.hdGap + p.eol.length) + i]? = (hexRow p (16 * r) (rowBytes b (16 * r)))[i]? := by
  refine getElem?_flatMap_range (by rw [rowCount_eq]; omega) (fun k hk => ?_) hi
  change (hexRow p (16 * k) (rowBytes b (16 * k))).length = _
  rw [hexRow_length, rowBytes_length]
  omega

/-- Settles O23: each column of the dump is a column of its row, which is one of the row's parts. -/
theorem hexDumpColumns : Obligations.HexDumpColumns := by
  intro p b r k base hr hk hbase
  have hlen : (rowBytes b (16 * r)).length = k := (rowBytes_length b (16 * r)).trans hk.symm
  have hcol : ∀ c, c < 52 + p.hdGap + k + p.eol.length →
      (hexDump p b)[base + c]? = (hexRow p (16 * r) (rowBytes b (16 * r)))[c]? := fun c hc => by
    rw [hbase, hexDump_row_column hr (by rwa [hexRow_length, hlen])]
  have hcell : ∀ j, j < 16 →
      (hexDump p b)[base + 5 + 3 * j]? = (hexCell (rowBytes b (16 * r)) j)[0]?
      ∧ (hexDump p b)[base + 6 + 3 * j]? = (hexCell (rowBytes b (16 * r)) j)[1]? := fun j hj => by
    constructor
    · rw [Nat.add_assoc, hcol _ (by omega), ← hexRow_cell_column hj (by decide), Nat.add_zero]
    · rw [Nat.add_assoc, hcol _ (by omega), ← hexRow_cell_column hj (by decide), Nat.add_right_comm]
  refine ⟨fun i hi => ?_, ?_, fun j x hj hx => ?_, fun j hkj hj => ?_, fun j hj => ?_, fun g hg => ?_, fun i hi => ?_⟩
  · rw [hcol i (by omega), hexRow_offset_column hi]
  · rw [hcol 4 (by omega), hexRow_offset_space]
    rfl
  · have hbyte : (rowBytes b (16 * r))[j]? = some x := (rowBytes_getElem? b (by omega)).trans hx
    obtain ⟨hhigh, hlow⟩ := hcell j (by omega)
    rw [hexCell_some hbyte] at hhigh hlow
    refine ⟨?_, ?_, ?_⟩
    · rw [hhigh, hex2, hexDigit_one_byte]
      rfl
    · rw [hlow, hex2, hexDigit_zero]
      rfl
    · rw [Nat.add_assoc, Nat.add_assoc, ← Nat.add_assoc 52, hcol _ (by omega), hexRow_ascii_column (hlen.symm ▸ hj), hbyte]
      rfl
  · obtain ⟨hhigh, hlow⟩ := hcell j hj
    rw [hexCell_none (List.getElem?_eq_none (hlen.trans_le hkj))] at hhigh hlow
    exact ⟨hhigh, hlow⟩
  · rw [Nat.add_assoc, hcol _ (by omega), hexRow_cell_space hj]
    rfl
  · rw [Nat.add_assoc, hcol _ (by omega), hexRow_gap_column hg]
    rfl
  · have hpos : base + 52 + p.hdGap + k + i = base + (52 + p.hdGap + k + i) := by omega
    rw [hpos, hcol _ (by omega), ← hlen, hexRow_eol_column]

/-! ### The size of a dump -/

theorem row_without_eol_length (m : Config.TosMap) (gap base : Nat) (row : List Byte) :
    (hexRow ⟨m, gap, []⟩ base row).length = 52 + gap + row.length := hexRow_length _ _ _

/-- The characters of a row before its terminator are spaces and printable ones (R110). -/
theorem newline_notMem_row (m : Config.TosMap) (gap base : Nat) (row : List Byte) : 0x0A#8 ∉ hexRow ⟨m, gap, []⟩ base row := by
  intro h
  rcases hexRow_textCode h with h | ⟨h, -⟩ | h
  · exact absurd h (by decide)
  · exact absurd h (by decide)
  · exact absurd h List.not_mem_nil

/-- The dump at the default `EOL`: each row's characters, then the terminator. -/
theorem hexDump_newline (m : Config.TosMap) (gap : Nat) (b : List Byte) :
    hexDump ⟨m, gap, [0x0A#8]⟩ b = (List.range (rowCount b.length)).flatMap fun r =>
      hexRow ⟨m, gap, []⟩ (16 * r) (rowBytes b (16 * r)) ++ [0x0A#8] :=
  List.flatMap_congr fun _ _ => hexRow_eq_append_eol _ _ _

/-- Settles O24: a row has as many characters as bytes besides a fixed number, and the bytes of all rows are those dumped;
the terminator is the only code 0x0A of a row. -/
theorem hexDumpSize : Obligations.HexDumpSize := by
  intro m gap b
  constructor
  · have hrow : ∀ r ∈ List.range (rowCount b.length),
        (hexRow ⟨m, gap, []⟩ (16 * r) (rowBytes b (16 * r)) ++ [0x0A#8]).length
          = (53 + gap) + (rowBytes b (16 * r)).length := fun r _ => by
      rw [List.length_append, row_without_eol_length, List.length_singleton]
      omega
    rw [hexDump_newline, List.length_flatMap, List.map_congr_left hrow, List.sum_map_add, ← List.length_flatMap,
      flatMap_rowBytes, List.map_const', List.sum_const_nat, List.length_range, rowCount_eq]
  · have hrow : ∀ r ∈ List.range (rowCount b.length),
        (hexRow ⟨m, gap, []⟩ (16 * r) (rowBytes b (16 * r)) ++ [0x0A#8]).count 0x0A#8 = 1 := fun r _ => by
      rw [List.count_append, List.count_eq_zero_of_not_mem (newline_notMem_row _ _ _ _), List.count_singleton_self]
    rw [hexDump_newline, List.count_flatMap]
    refine (congrArg List.sum (List.map_congr_left hrow)).trans ?_
    rw [List.map_const', List.sum_const_nat, List.length_range, Nat.mul_one, rowCount_eq]

/-! ### Reading a dump back -/

/-- A text that begins with a line and its terminator has the line as its first row. -/
theorem textRows_line {eol : Byte} {line : List Byte} (h : eol ∉ line) (acc rest : List Byte) :
    textRows eol acc (line ++ eol :: rest) = (acc.reverse ++ line) :: textRows eol [] rest := by
  induction line generalizing acc with
  | nil => rw [List.nil_append, List.append_nil, textRows, if_pos rfl]
  | cons c line ih =>
    obtain ⟨hc, hline⟩ := List.ne_and_not_mem_of_not_mem_cons h
    rw [List.cons_append, textRows, if_neg (Ne.symm hc), ih hline, List.reverse_cons, List.append_assoc, List.singleton_append]

/-- The rows of lines that each end in the terminator are the lines. -/
theorem textRows_flatMap_lines {eol : Byte} {α : Type} {line : α → List Byte} (h : ∀ r, eol ∉ line r) (l : List α) :
    textRows eol [] (l.flatMap fun r => line r ++ [eol]) = l.map line := by
  induction l with
  | nil => rfl
  | cons r l ih =>
    rw [List.flatMap_cons, List.append_assoc, List.singleton_append, textRows_line (h r), ih]
    rfl

/-- The two digit characters of a byte are read back as the byte (R199). -/
theorem byte_of_hexVal_digits (x : Byte) :
    BitVec.ofNat 8 (16 * hexVal (hexChar (hexDigit x.toNat 1)) + hexVal (hexChar (hexDigit x.toNat 0))) = x := by
  rw [hexVal_hexChar (hexDigit_lt _ _), hexVal_hexChar (hexDigit_lt _ _), ← byte_eq_nibbles x.isLt, BitVec.ofNat_toNat,
    BitVec.setWidth_eq]

/-- A row is read back as its bytes (R199). -/
theorem parseRow_hexRow (m : Config.TosMap) (gap base : Nat) {row : List Byte} (h : row.length ≤ 16) :
    parseRow gap (hexRow ⟨m, gap, []⟩ base row) = row := by
  have hlen : (hexRow ⟨m, gap, []⟩ base row).length - (52 + gap) = row.length := by
    rw [row_without_eol_length]
    omega
  refine List.ext_getElem (by rw [parseRow, List.length_map, List.length_range, hlen]) fun j _ hj => ?_
  have hcell : hexCell row j = hex2 row[j].toNat := hexCell_some (List.getElem?_eq_getElem hj)
  have hhigh : (hexRow ⟨m, gap, []⟩ base row)[5 + 3 * j]? = some (hexChar (hexDigit row[j].toNat 1)) := by
    rw [← Nat.add_zero (5 + 3 * j), hexRow_cell_column (by omega) (by decide), hcell]
    rfl
  have hlow : (hexRow ⟨m, gap, []⟩ base row)[6 + 3 * j]? = some (hexChar (hexDigit row[j].toNat 0)) := by
    rw [show 6 + 3 * j = 5 + 3 * j + 1 by omega, hexRow_cell_column (by omega) (by decide), hcell]
    rfl
  simp only [parseRow, List.getElem_map, List.getElem_range, List.getD_eq_getElem?_getD, hhigh, hlow, Option.getD_some]
  exact byte_of_hexVal_digits row[j]

/-- Settles O25: the text is cut into the rows it was made of, each is read back as its bytes, and the rows' bytes are those
dumped. -/
theorem hexDumpRoundTrip : Obligations.HexDumpRoundTrip := by
  intro m gap b
  have hrow : ∀ r, parseRow gap (hexRow ⟨m, gap, []⟩ (16 * r) (rowBytes b (16 * r))) = rowBytes b (16 * r) := fun r =>
    parseRow_hexRow m gap _ ((rowBytes_length b _).trans_le (Nat.min_le_left _ _))
  rw [parseDump, hexDump_newline, textRows_flatMap_lines fun r => newline_notMem_row m gap _ _, List.flatMap_map,
    List.flatMap_congr fun r _ => hrow r, flatMap_rowBytes]

/-! ### DUMP -/

/-- Over a range that is held, DUMP appends the text of its bytes, seals and reports 0 (R190). -/
theorem execDump_of_holds {s : State} {first last : Nat} {b : Nat → Byte} (hle : first ≤ last)
    (hb : s.Holds first (last - first) b) :
    execDump first last s =
      .next ((s.markSealed.emitText (hexDump params ((List.range (last - first)).map b))).setCode .ok) := by
  have hlen := hb.1
  have hlegal : s.rangeLegal first last = true := State.rangeLegal_iff.2 ⟨hle, by omega⟩
  have hsealed : s.markSealed.Holds first (last - first) b := (State.holds_congr rfl rfl).2 hb
  rw [execDump, if_pos hlegal, State.dumpRange_of_readable hsealed.readable, andThen_next, hsealed.bytes_eq]

/-- The word of a DUMP: its `op` is 7, its arguments the ends of the range (R91). -/
theorem dumpWord_eq_commandWord (first last : Nat) :
    BitVec.ofNat 32 (0x70000000 + 2048 * first + last) = commandWord 7 first last :=
  congrArg (BitVec.ofNat 32) (by omega)

/-- Settles O22: a range that is held passes both checks, an illegal one fails the first; no bytes have no text. -/
theorem dumpRendersRange : Obligations.DumpRendersRange := by
  refine ⟨fun s first last b hle hb => execDump_of_holds hle hb, fun s first last hillegal => ?_, fun s first hle => ?_,
    fun first last hfirst hlast => ?_, rfl, rfl⟩
  · exact if_neg (State.rangeLegal_iff.not.2 hillegal)
  · have hempty : s.Holds first (first - first) fun _ => 0#8 := ⟨by omega, fun i hi => by omega⟩
    refine (execDump_of_holds (Nat.le_refl first) hempty).trans (congrArg Host.Outcome.next ?_)
    rw [Nat.sub_self, List.range_zero, List.map_nil, hexDump_nil, State.emitText, List.map_nil, List.append_nil]
    rfl
  · rw [dumpWord_eq_commandWord]
    exact (CommandForm.dump first last).decoded hfirst hlast

/-! ### The ASCII column -/

/-- Settles O27: the model tests for exactly the bounds 33 and 126. -/
theorem asciiColumnRendering : Obligations.AsciiColumnRendering := by
  refine fun v => ⟨fun hlo hhi => if_pos ⟨hlo, hhi⟩, fun hout => if_neg fun ⟨hlo, hhi⟩ => ?_⟩
  rw [Config.printLo] at hlo
  rw [Config.printHi] at hhi
  omega

end Sys2Proof.Machine
end

section
/-! PROOFS. The control and load commands (R210 to R213): the words of NOP and PUSH, what a PUSH does in each of the states
R213 tells apart, and that CLR and `rst` alone end a decode pass: the seal and the stop outlive every other input. -/

namespace Sys2Proof.Machine

/-! ### NOP -/

theorem exec_nop (s : State) : exec .nop s = .next s := rfl

/-- The one word of the operand form of NOP is 0 (R91). -/
theorem decodeCommand_eq_nop {w : Word} : decodeCommand w = .ok .nop ↔ w = 0#32 := by
  refine ⟨fun h => ?_, fun h => h ▸ CommandForm.nop.decoded (by decide) (by decide)⟩
  by_contra hw
  exact illegalWordsAreRefused.2 w hw h

/-- A word with `op` 0 that decodes has both arguments zero, as the word 0 has. -/
theorem eq_zero_of_decodes_op_zero {w : Word} {i : Instr} (h : decodeCommand w = .ok i) (hop : wordOp w = 0#4) :
    w = 0#32 := by
  obtain ⟨hz, hform⟩ := decodeCommand_eq_ok.1 h
  rw [hop] at hform
  obtain ⟨-, hargs, -⟩ := hform.legal
  obtain ⟨ha, hb⟩ := hargs (by decide)
  rw [← commandWord_of_fields hz, hop, ha, hb]
  rfl

/-- Settles O4: what decodes with `op` 0 is the word 0. -/
theorem nopKeepsEverything : Obligations.NopKeepsEverything := by
  refine ⟨exec_nop, fun w => decodeCommand_eq_nop, fun w hop hw => ?_⟩
  rcases hd : decodeCommand w with e | i
  · exact ⟨e, rfl⟩
  · exact absurd (eq_zero_of_decodes_op_zero hd hop) hw

/-! ### What outlives every operation but CLR -/

/-- Every operation but CLR leaves a stopped splitter stopped, with the same stop code (R210, R247). -/
theorem exec_keeps_stop {i : Instr} {s t : State} {r : StopReason} (hr : s.stopReason = some r) (hc : i ≠ .clr)
    (h : exec i s = .next t) : t.stopReason = some r := by
  obtain ⟨hnext, hrun, -⟩ := stoppedSplitterOnlyReports s r hr
  cases i with
  | hexdigit v p => cases h; exact hr
  | bindigit v p => cases h; exact hr
  | nop => cases h; exact hr
  | clr => exact absurd rfl hc
  | push d => rcases execPush_cases h with ⟨-, rfl⟩ | ⟨-, -, rfl⟩ | ⟨-, -, rfl⟩ <;> exact hr
  | eth off => rcases execEth_cases h with ⟨-, rfl⟩ | ⟨-, rfl⟩ <;> exact hr
  | ip4 off => rcases execIp4_cases h with ⟨c, -, rfl⟩ | ⟨-, -, -, rfl⟩ <;> exact hr
  | next => cases hnext.symm.trans h; exact hr
  | run => cases hrun.symm.trans h; exact hr
  | dump a z => rcases execDump_cases h with ⟨-, rfl⟩ | ⟨-, rfl⟩ <;> exact hr

/-- Settles O51: the seal and the stop, each operation by operation. -/
theorem onlyClrLeavesStopAndSeal : Obligations.OnlyClrLeavesStopAndSeal :=
  fun _ _ _ hc h => ⟨fun hs => exec_keeps_seal hs hc h, fun _ hr => exec_keeps_stop hr hc h⟩

/-! ### The rest of a decode pass -/

/-- A sample that completes has changed the word the read port shows (R33). -/
theorem sampleRegister_next {a : BitVec 6} {s t : State} (h : sampleRegister a s = .next t) : ∃ w, t = s.setRdData w := by
  unfold sampleRegister at h
  split at h
  · next w _ => exact ⟨w, by injection h with h; exact h.symm⟩
  · cases h

/-- An input that is neither CLR nor `rst` keeps the seal (R28, R210). -/
theorem performInput_keeps_seal {x : HostInput} {s t : State} (hx : x.StaysInPass) (hs : s.sealed = true)
    (h : performInput x s = .next t) : t.sealed = true := by
  obtain ⟨hrst, hclr⟩ := hx
  cases x with
  | issue p =>
    change performPort p s = .next t at h
    rcases hp : decodePort p with e | i
    · cases (performPort_error hp s).symm.trans h
      exact hs
    · have hi : i ≠ .clr := by
        rintro rfl
        exact hclr p rfl hp
      exact exec_keeps_seal hs hi ((performPort_ok hp s).symm.trans h)
  | readRegister a =>
    obtain ⟨w, rfl⟩ := sampleRegister_next h
    exact hs
  | assertRst => exact absurd rfl hrst

/-- So does a sequence of such inputs. -/
theorem performAll_keeps_seal {xs : List HostInput} {s t : State} (hxs : ∀ x ∈ xs, x.StaysInPass) (hs : s.sealed = true)
    (h : performAll xs s = .next t) : t.sealed = true := by
  induction xs generalizing s with
  | nil => cases h; exact hs
  | cons x xs ih =>
    obtain ⟨hx, hxs⟩ := List.forall_mem_cons.1 hxs
    rw [performAll_cons, andThen_eq_next] at h
    obtain ⟨u, hu, h⟩ := h
    exact ih hxs (performInput_keeps_seal hx hs hu) h

/-! ### PUSH -/

/-- A sealed buffer refuses a PUSH with code 6 (R213, R239). -/
theorem execPush_of_sealed {s : State} (hs : s.sealed = true) (d : Nat) :
    execPush d s = .next (s.raise .illegalCommand .refusal) :=
  if_pos hs

/-- A full buffer refuses a PUSH with code 7 (R213, R239). -/
theorem execPush_of_full {s : State} (hs : s.sealed = false) (hl : s.len.toNat = 1024) (d : Nat) :
    execPush d s = .next (s.raise .bufferFull .refusal) := by
  rw [execPush_eq, if_neg (by simp [hs]), if_pos hl]

/-- An unsealed buffer with room stores the byte at `LEN` (R213). -/
theorem execPush_of_room {s : State} (hs : s.sealed = false) (hl : s.len.toNat < 1024) (d : Nat) :
    execPush d s =
      .next { s with buf := Memory.write s.buf s.len.toNat (toByte d), len := s.len + 1#11, code := .ok } := by
  rw [execPush_eq, if_neg (by simp [hs]), if_neg (Nat.ne_of_lt hl), if_pos hl]

/-- `LEN` does not wrap while the buffer has room (R22). -/
theorem len_succ_toNat {n : BitVec 11} (h : n.toNat < 1024) : (n + 1#11).toNat = n.toNat + 1 := by
  bv_omega

/-- The word of a PUSH: its `op` is 2, its `b` the byte, and all else zero (R91). -/
theorem pushWord_eq_commandWord (d : Nat) : BitVec.ofNat 32 (0x20000000 + d) = commandWord 2 0 d :=
  congrArg (BitVec.ofNat 32) (by omega)

/-- The words of PUSH are those of its operand form, for the values of a byte (R91, R213). -/
theorem decodeCommand_eq_push {w : Word} {d : Nat} :
    decodeCommand w = .ok (.push d) ↔ d < 256 ∧ w = BitVec.ofNat 32 (0x20000000 + d) := by
  rw [pushWord_eq_commandWord]
  constructor
  · intro h
    obtain ⟨hwf, henc⟩ := decodeCommand_encoded h
    injection henc with henc
    exact ⟨of_decide_eq_true hwf, henc.symm⟩
  · rintro ⟨hd, rfl⟩
    exact (CommandForm.push hd).decoded (by decide) (by omega)

/-- Settles O6: a PUSH does one of three things by the seal and `LEN`, and a command that reads the buffer sets the seal,
which lasts for the rest of the decode pass. -/
theorem pushAppendsOrIsRefused : Obligations.PushAppendsOrIsRefused := by
  refine ⟨fun s d hs => execPush_of_sealed hs d, fun s d hs hl => execPush_of_full hs hl d, fun s d hs hl => ?_,
    fun w d => decodeCommand_eq_push, fun i s t u xs d hinv ht hreads hxs hu => ?_⟩
  · exact ⟨_, execPush_of_room hs hl d, len_succ_toNat hl, fun a => Memory.read_write _ _ _ a, Memory.wf_write _ hl⟩
  · exact execPush_of_sealed (performAll_keeps_seal hxs (exec_seals hinv ht hreads) hu) d

end Sys2Proof.Machine
end

section
/-! PROOFS. The conditions (R230 to R243): how each of the five stops comes about at the cursor, that a RUN ends as its last
iteration does, what a refusal, a failed decode and a stop have written, and the numbers of the codes. -/

namespace Sys2Proof.Machine

/-! ### The five stops of an iteration -/

/-- The reason R173 gives for too few bytes, in the numbers `StopsAt` is stated in. -/
theorem State.shortStop_eq (s : State) :
    s.shortStop =
      if s.cur.toNat = s.len.toNat ∧ s.cur.toNat ≠ 0 then .endOfBuffer else .trailingDataTooShort := by
  have hmoved : s.cur ≠ 0#11 ↔ s.cur.toNat ≠ 0 := by rw [ne_eq, ← BitVec.toNat_inj]; rfl
  exact if_congr (by rw [hmoved, State.remaining]; omega) rfl rfl

/-- A header length below 20 is the first thing the decode tests (R152, R154). -/
theorem decodeIpAt_of_short_header {m : Config.TosMap} {rd : Nat → Byte} {off : Nat} (h : ipHlenAt rd off < 20) :
    decodeIpAt m rd off = .error .invalidHeaderLength :=
  if_pos h

/-- A total length below a legal header length is the second (R153, R154). -/
theorem decodeIpAt_of_short_total {m : Config.TosMap} {rd : Nat → Byte} {off : Nat} (h20 : 20 ≤ ipHlenAt rd off)
    (h : ipTlenAt rd off < ipHlenAt rd off) : decodeIpAt m rd off = .error .invalidTotalLength :=
  (if_neg (Nat.not_lt.2 h20)).trans (if_pos h)

section
variable {p : Config.Params} {s t : State}

/-- A condition of the decode stops an unstopped splitter that has 34 bytes left (R170). -/
theorem splitOnce_of_decode_error {b : Nat → Byte} {c : IpCondition} (hs : s.stopReason = none)
    (hb : s.Holds s.cur.toNat 34 b) (hd : decodeIpAt p.tosMap s.byteAt (s.cur.toNat + 14) = .error c) :
    splitOnce p s = .next (s.stopWith c.stop) := by
  rw [splitOnce_decode hs hb.1 hb.readable, hd]

/-- A frame with legal lengths that ends past `LEN` stops it as incomplete (R175). -/
theorem splitOnce_of_end_past_len {b : Nat → Byte} (hs : s.stopReason = none) (hb : s.Holds s.cur.toNat 34 b)
    (h20 : 20 ≤ hlenOf (ipPart b)) (hle : hlenOf (ipPart b) ≤ tlenOf (ipPart b))
    (hend : s.len.toNat < s.cur.toNat + 14 + tlenOf (ipPart b)) :
    splitOnce p s = .next (s.stopWith .incompleteFrame) := by
  obtain ⟨hhlen, htlen⟩ := hb.ipLengths
  obtain ⟨-, -, -, hfield, -⟩ := ipHeaderAt_numbers p.tosMap s.byteAt (s.cur.toNat + 14)
  rw [← hhlen] at h20 hle
  rw [← htlen] at hle hend
  rw [splitOnce_decode hs hb.1 hb.readable, decodeIpAt_of_legal h20 hle]
  dsimp only
  rw [hfield, if_pos hend]

/-- The iteration of an unstopped splitter stops for the reason that R243 puts first (R170, R173). -/
theorem splitOnce_of_stopsAt {r : StopReason} (hs : s.stopReason = none) (h : s.StopsAt s.cur.toNat r) :
    splitOnce p s = .next (s.stopWith r) := by
  rcases h with ⟨hl, rfl⟩ | ⟨b, hb, hreason⟩
  · rw [← s.shortStop_eq]
    exact splitOnce_short hs hl
  · obtain ⟨hhlen, htlen⟩ := hb.ipLengths
    rcases hreason with ⟨hlt, rfl⟩ | ⟨h20, hlt, rfl⟩ | ⟨h20, hle, hend, rfl⟩
    · rw [← hhlen] at hlt
      exact splitOnce_of_decode_error hs hb (decodeIpAt_of_short_header hlt)
    · rw [← hhlen] at h20 hlt
      rw [← htlen] at hlt
      exact splitOnce_of_decode_error hs hb (decodeIpAt_of_short_total h20 hlt)
    · exact splitOnce_of_end_past_len hs hb h20 hle hend

end

/-- Settles O15: each reason that stands at the cursor makes the iteration stop, and `stopWith` writes what R238 lists. -/
theorem nextStopsWithReason : Obligations.NextStopsWithReason :=
  fun _ _ hs h => splitOnce_of_stopsAt hs h

/-- At cursor 0 of a short buffer, and with 1 to 33 bytes left, the end is not a clean one (R173, R235). -/
theorem State.stopsAt_trailing {s : State}
    (h : (s.cur = 0#11 ∧ s.len.toNat < 34) ∨ (s.cur.toNat < s.len.toNat ∧ s.len.toNat < s.cur.toNat + 34)) :
    s.StopsAt s.cur.toNat .trailingDataTooShort := by
  rcases h with ⟨hcur, hlen⟩ | ⟨hmore, hlen⟩
  · have hzero : s.cur.toNat = 0 := congrArg BitVec.toNat hcur
    exact .inl ⟨by omega, (if_neg fun hclean => hclean.2 hzero).symm⟩
  · exact .inl ⟨hlen, (if_neg fun hclean => Nat.ne_of_lt hmore hclean.1).symm⟩

/-- Settles O17: the first iteration stops, so the NEXT does and the RUN ends with it. -/
theorem shortBufferYieldsNoFrame : Obligations.ShortBufferYieldsNoFrame := by
  intro s hs h
  have hnext : splitOnce params s = .next (s.stopWith .trailingDataTooShort) :=
    splitOnce_of_stopsAt hs (State.stopsAt_trailing h)
  have hrun : execRun s = .next (s.stopWith .trailingDataTooShort) :=
    runLoop_of_splitOnce_not_ok hnext (StopReason.code_ne_ok .trailingDataTooShort)
  exact ⟨hrun.trans hnext.symm, hrun⟩

/-! ### How a RUN ends -/

section
variable {p : Config.Params} {s t : State}

/-- An iteration of an unstopped splitter that does not report 0 has stopped it (R238). -/
theorem splitOnce_not_ok (hs : s.stopReason = none) (h : splitOnce p s = .next t) (hc : t.code ≠ .ok) :
    ∃ r, t = s.stopWith r := by
  rcases splitOnce_stop_or_frame hs h with ⟨r, -, ht⟩ | ⟨b, -, rfl⟩
  · exact ⟨r, ht⟩
  · exact absurd rfl hc

/-- A loop ends as its last iteration does, which does not report 0; the iterations before it emit frames and so do not stop
the splitter (R180). -/
theorem runLoop_last {n : Nat} (h : runLoop p n s = .next t) :
    ∃ w, splitOnce p w = .next t ∧ t.code ≠ .ok ∧ w.stopReason = s.stopReason := by
  induction n generalizing s with
  | zero => cases h
  | succ n ih =>
    rcases runLoop_next h with ⟨ht, hc⟩ | ⟨u, v, hu, hok, hv, hrest⟩
    · exact ⟨s, ht, hc, rfl⟩
    · obtain ⟨w, ht, hc, hw⟩ := ih hrest
      obtain ⟨-, b, -, rfl⟩ := splitOnce_ok hu hok
      obtain ⟨-, rfl⟩ := State.dumpRange_next hv
      exact ⟨w, ht, hc, hw⟩

/-- After an iteration that reports 0 the dump of the loop is a DUMP of the range it left, from any state. -/
theorem execDump_of_splitOnce_ok (h : splitOnce p s = .next t) (hok : t.code = .ok) :
    execDump t.fstart.toNat t.fend.toNat t = t.dumpRange params t.fstart.toNat t.fend.toNat := by
  obtain ⟨-, b, hf, rfl⟩ := splitOnce_ok h hok
  have hend := hf.toAddr_end
  obtain ⟨-, -, -, hlen⟩ := hf
  refine execDump_of_sealed_ok (State.rangeLegal_iff.2 ?_) rfl rfl
  rw [State.emitFrame_fstart, State.emitFrame_fend, State.emitFrame_len, hend]
  omega

end

/-- Settles O50: a NEXT that does not report 0 is a stop, a RUN ends with one, and a RUN whose first iteration emits a frame
goes on with a loop whose smaller bound is not felt. -/
theorem splitterStopWrites : Obligations.SplitterStopWrites := by
  refine ⟨fun s t hs h hc => ?_, fun s t hs h => ?_, fun s t u hu hok h => ?_⟩
  · obtain ⟨r, rfl⟩ := splitOnce_not_ok hs h hc
    exact ⟨r, rfl, rfl⟩
  · obtain ⟨w, ht, hc, hw⟩ := runLoop_last h
    have hout := (runLoop_frame h).out
    obtain ⟨r, rfl⟩ := splitOnce_not_ok (hw.trans hs) ht hc
    exact ⟨hout, rfl, rfl, rfl, r, rfl, rfl⟩
  · rcases runLoop_next h with ⟨ht, hc⟩ | ⟨u', v, hu', -, hv, hrest⟩
    · cases hu.symm.trans ht
      exact absurd hok hc
    · cases hu.symm.trans hu'
      exact ⟨v, (execDump_of_splitOnce_ok hu hok).trans hv, (splitOnce_frame hu).out, (dumpRange_frame hv).out,
        (runLoop_frame hrest).out, runLoop_mono hrest (by decide)⟩

/-! ### What a refusal and a failed decode write -/

/-- A stop is reported with a code that no refusal has (R231, R239). -/
theorem StopReason.code_not_refusal (r : StopReason) : ¬(r.code = .illegalCommand ∨ r.code = .bufferFull) := by
  cases r <;> decide

theorem Code.ok_not_refusal : ¬(Code.ok = .illegalCommand ∨ Code.ok = .bufferFull) := by decide

/-- An iteration reports 0 or the code of a stop, so it is never refused. -/
theorem splitOnce_not_refusal {p : Config.Params} {s t : State} (h : splitOnce p s = .next t) :
    ¬(t.code = .illegalCommand ∨ t.code = .bufferFull) := by
  rcases splitOnce_outcomes h with ⟨r, -, rfl⟩ | ⟨r, rfl⟩ | ⟨e, i, z, rfl⟩
  · exact r.code_not_refusal
  · exact r.code_not_refusal
  · exact Code.ok_not_refusal

/-- Settles O48: NOP changes nothing, PUSH and DUMP are refused before they write, and no other command reports 6 or 7. -/
theorem refusalWritesCodeOnly : Obligations.RefusalWritesCodeOnly := by
  refine ⟨fun i s t h hhex hbin hc => ?_, fun p e s h => performPort_error h s⟩
  cases i with
  | hexdigit v p => exact absurd rfl (hhex v p)
  | bindigit v p => exact absurd rfl (hbin v p)
  | nop => cases h; rfl
  | clr => cases h; exact absurd hc Code.ok_not_refusal
  | push d =>
    rcases execPush_cases h with ⟨-, rfl⟩ | ⟨-, -, rfl⟩ | ⟨-, -, rfl⟩
    · rfl
    · rfl
    · exact absurd hc Code.ok_not_refusal
  | eth off => rcases execEth_cases h with ⟨-, rfl⟩ | ⟨-, rfl⟩ <;> simp at hc
  | ip4 off => rcases execIp4_cases h with ⟨c, rfl | rfl | rfl, rfl⟩ | ⟨-, -, -, rfl⟩ <;> simp at hc
  | next => exact absurd hc (splitOnce_not_refusal h)
  | run =>
    obtain ⟨w, ht, -⟩ := runLoop_last h
    exact absurd hc (splitOnce_not_refusal ht)
  | dump a z =>
    rcases execDump_cases h with ⟨-, rfl⟩ | ⟨-, rfl⟩
    · rfl
    · exact absurd hc Code.ok_not_refusal

/-- Settles O49: of the outcomes of ETH and of IP4, the one that stores a header reports 0. -/
theorem decoderConditionWrites : Obligations.DecoderConditionWrites := by
  refine ⟨fun s t off h hc => ?_, fun s t off h hc => ?_⟩
  · rcases execEth_cases h with ⟨-, rfl⟩ | ⟨-, rfl⟩
    · exact ⟨rfl, rfl⟩
    · exact absurd rfl hc
  · rcases execIp4_cases h with ⟨c, hcode, rfl⟩ | ⟨-, -, -, rfl⟩
    · exact ⟨hcode, rfl⟩
    · exact absurd rfl hc

/-! ### The numbers of the codes, and the idle block -/

/-- The number of a stop's code is one of the five R231 gives to stops. -/
theorem StopReason.code_bits_mem (r : StopReason) : r.code.bits.toNat ∈ [2, 3, 4, 5, 8] := by
  cases r <;> decide

/-- `err` leaves out 0 and 8, and what is left of the nine codes is 1 to 7 (R43). -/
theorem State.err_iff (s : State) : s.err = true ↔ 1 ≤ s.code.bits.toNat ∧ s.code.bits.toNat ≤ 7 := by
  unfold State.err
  cases s.code <;> decide

/-- Settles O29. -/
theorem conditionCodesAndErr : Obligations.ConditionCodesAndErr :=
  ⟨rfl, rfl, rfl, rfl, rfl, rfl, rfl, rfl, rfl, rfl, rfl, rfl, rfl, rfl, StopReason.code_bits_mem, State.err_iff⟩

/-- Settles O38: with nothing at the ports the step is the wait. -/
theorem idleBlockWaits : Obligations.IdleBlockWaits := by
  intro s h
  simp only [step, h, waitIdle]

end Sys2Proof.Machine
end

section
/-! PROOFS. Reset and hazards: the bound of RUN is not felt however far it is raised (R281), a sample of the read port shows
a word or meets a group without a value (R30, R272, U1), and `rst` (R260). -/

namespace Sys2Proof.Machine

/-- Settles O21: a RUN completes within its own bound, and a loop that completes is not changed by a higher one. -/
theorem runNeedsNoMoreIterations : Obligations.RunNeedsNoMoreIterations := by
  intro s n h hn
  obtain ⟨t, ht⟩ := h.execRun_completes
  exact ⟨(runLoop_mono ht hn).trans ht.symm, t, ht⟩

/-! ### Which samples show a word -/

/-- A step takes the input that stands first, the rest left for later (R41). -/
theorem step_cons {s : State} {x : HostInput} {rest : List HostInput} (h : s.inbox = x :: rest) :
    step s = performInput x (s.setInbox rest) := by
  simp only [step, h]

theorem sampleRegister_of_some {a : BitVec 6} {s : State} {w : Word} (h : s.readRegister a = some w) :
    sampleRegister a s = .next (s.setRdData w) := by
  simp only [sampleRegister, h]

theorem sampleRegister_of_none {a : BitVec 6} {s : State} (h : s.readRegister a = none) :
    sampleRegister a s = .fault .unspecifiedRegister := by
  simp only [sampleRegister, h]

section
variable (s : State) {a : BitVec 6}

/-- The addresses 0x08 to 0x0C show words of the E group and of nothing else (R33). -/
theorem State.readRegister_eth (hlo : 0x08 ≤ a.toNat) (hhi : a.toNat ≤ 0x0C) :
    ∃ f : EthHeader → Word, s.readRegister a = s.eth.map f := by
  unfold State.readRegister
  generalize a.toNat = n at hlo hhi ⊢
  interval_cases n <;> exact ⟨_, rfl⟩

/-- The addresses 0x10 to 0x1A show words of the I group and of nothing else (R33). -/
theorem State.readRegister_ip (hlo : 0x10 ≤ a.toNat) (hhi : a.toNat ≤ 0x1A) :
    ∃ f : IpHeader → Word, s.readRegister a = s.ip.map f := by
  unfold State.readRegister
  generalize a.toNat = n at hlo hhi ⊢
  interval_cases n <;> exact ⟨_, rfl⟩

/-- A control register shows a word in every state (R33). -/
theorem State.readRegister_control (h : a.toNat ≤ 4) : ∃ w, s.readRegister a = some w := by
  unfold State.readRegister
  generalize a.toNat = n at h ⊢
  interval_cases n <;> exact ⟨_, rfl⟩

/-- The registers that show no word are those of a group without a value (R30, R272). -/
theorem State.readRegister_eq_none_iff :
    s.readRegister a = none ↔
      (s.eth = none ∧ 0x08 ≤ a.toNat ∧ a.toNat ≤ 0x0C) ∨ (s.ip = none ∧ 0x10 ≤ a.toNat ∧ a.toNat ≤ 0x1A) := by
  by_cases he : 0x08 ≤ a.toNat ∧ a.toNat ≤ 0x0C
  · obtain ⟨hlo, hhi⟩ := he
    obtain ⟨f, hf⟩ := s.readRegister_eth hlo hhi
    have hi : ¬(0x10 ≤ a.toNat ∧ a.toNat ≤ 0x1A) := by omega
    simp only [hf, Option.map_eq_none_iff, hlo, hhi, hi, and_true, and_false, or_false]
  by_cases hi : 0x10 ≤ a.toNat ∧ a.toNat ≤ 0x1A
  · obtain ⟨hlo, hhi⟩ := hi
    obtain ⟨f, hf⟩ := s.readRegister_ip hlo hhi
    simp only [hf, Option.map_eq_none_iff, hlo, hhi, he, and_true, and_false, false_or]
  have hw : ∃ w, s.readRegister a = some w := by
    rcases Nat.lt_or_ge 4 a.toNat with hgap | hcontrol
    · exact ⟨_, unlistedAddressesReadZero s a (by omega)⟩
    · exact s.readRegister_control hcontrol
  obtain ⟨w, hw⟩ := hw
  simp only [hw, he, hi, reduceCtorEq, and_false, or_self]

end

/-- Settles O32: what the host does next is no part of a register, so the sample is that of the state before the step. -/
theorem readPortSampling : Obligations.ReadPortSampling := by
  refine ⟨fun s a rest w hin hw => ?_, fun s a rest hin hgroup => ?_, fun s a hgroup => ?_⟩
  · exact (step_cons hin).trans (sampleRegister_of_some ((s.setInbox_readRegister rest a).trans hw))
  · have hnone := s.readRegister_eq_none_iff.2 hgroup
    exact (step_cons hin).trans (sampleRegister_of_none ((s.setInbox_readRegister rest a).trans hnone))
  · exact Option.ne_none_iff_exists'.1 (mt s.readRegister_eq_none_iff.1 hgroup)

/-! ### `rst` -/

/-- The state `rst` leaves is that of reset, but for `BUF`, the records of the ports and what the host does next (R50, R260). -/
theorem State.applyRst_eq_reset (s : State) :
    s.applyRst = { State.reset with buf := s.buf, bfxOut := s.bfxOut, rdData := s.rdData, inbox := s.inbox } := rfl

/-- Settles O35: the step is `rst`, with that edge taken from the inputs. -/
theorem rstGivesResetState : Obligations.RstGivesResetState :=
  fun s rest hin => (step_cons hin).trans (congrArg _ (s.setInbox rest).applyRst_eq_reset)

end Sys2Proof.Machine
end
